-- ==== Sys2Proof/Word.lean ====
section
/-! DEFINITION. The word types of base64_codec_core: the widths the spec gives its quantities (rules R8, R60, R104). -/

namespace Sys2Proof

/-- An octet: a byte of a buffer, a character, `TERM`, `PAD` (rule R104: 8 bits). -/
abbrev Byte := BitVec 8

/-- A 16-bit register or buffer index (`LEN`, `OLEN`, `IPTR`, `OPTR`, `ERRIDX`; rules R13 to R17, R80). -/
abbrev Half := BitVec 16

/-- A 32-bit CSR word or command word (rules R25, R60). -/
abbrev Word := BitVec 32

/-- A sextet (rule R104: 6 bits). -/
abbrev Sextet := BitVec 6

/-- A 24-bit group value (rules R67, R104). -/
abbrev Group := BitVec 24

end Sys2Proof
end

