-- ==== Sys2Proof/Config.lean ====
section
/-! DEFINITION. The parameters of the block (rule R5) and the free values of the model (rule R187, log entries 1 to 3). -/

namespace Sys2Proof

/-- The two parameters a model takes as arguments (rule R5, decisions D3 and D8). -/
structure Config where
  /-- `ENC_SIZE`, the largest number of bytes one ENC accepts. -/
  encSize : Nat
  /-- `TERM`, the sentinel ENC_FINISH writes after the last character (rule R103). -/
  term : Byte
  deriving DecidableEq, Repr

/-- `DEC_SIZE = 4 * ceil(ENC_SIZE / 3)` (rule R5). -/
def Config.decSize (c : Config) : Nat := 4 * ((c.encSize + 2) / 3)

/-- `IBUF_SIZE = DEC_SIZE` (rule R5). -/
def Config.ibufSize (c : Config) : Nat := c.decSize

/-- `OBUF_SIZE = DEC_SIZE + 1` (rule R5). -/
def Config.obufSize (c : Config) : Nat := c.decSize + 1

/-- The defaults of rule R5: `ENC_SIZE` 60 and `TERM` 0x00. -/
def Config.standard : Config := { encSize := 60, term := 0x00#8 }

/-- FREE VALUE (log entry 2): what an IBUF byte holds that the host has not written since the last reset. Rule R187 gives such a
byte no value; nothing constrains this constant, so whatever is proved holds for every content. The arguments are the number of
resets taken (`State.epoch`) and the index. -/
opaque Config.freeIbuf : Nat → Nat → Byte

/-- FREE VALUE (log entry 2): what an OBUF byte holds that the core has not written since the last reset (rule R187). -/
opaque Config.freeObuf : Nat → Nat → Byte

end Sys2Proof
end

