-- ==== Sys2Proof/Syntax.lean ====
section
/-! DEFINITION. The two commands of spec/opcode_table.json (rules R60 to R64). -/

namespace Sys2Proof

/-- A legal command word, one constructor per row of the opcode table. `LEN` (bits 15:0) is the only operand (rule R62);
it is held at its own width, so that no command can hold a length that its word could not. -/
inductive Instr where
  /-- ENC: encode the `LEN` bytes at the start of IBUF (rule R120). -/
  | enc (len : Half)
  /-- DEC: decode the `LEN` characters at the start of IBUF (rule R135). -/
  | dec (len : Half)
  deriving DecidableEq, Repr

end Sys2Proof
end

