-- ==== Sys2Proof/WellFormed.lean ====
section
/-! DEFINITION. What is well formed: a configuration, a command word, an instruction. -/

namespace Sys2Proof

/-- The range of `ENC_SIZE` (rule R5: 1 <= ENC_SIZE <= 49149). -/
abbrev Config.wf (c : Config) : Prop := 1 ≤ c.encSize ∧ c.encSize ≤ 49149

/-- The RSV field of a command word, bits 31:17 (rule R60). -/
def wordRsv (w : Word) : BitVec 15 := w.extractLsb' 17 15

/-- The MODE bit of a command word, bit 16 (rule R61). -/
def wordModeBit (w : Word) : Bool := w.getLsbD 16

/-- The LEN field of a command word, bits 15:0 (rule R62). -/
def wordLen (w : Word) : Half := w.extractLsb' 0 16

/-- A command word is legal when its reserved bits are all 0 (rules R63, R65). -/
def wordLegal (w : Word) : Bool := wordRsv w == 0#15

/-- Every instruction is well formed: its one field has exactly the width of the word's LEN field, and every value of it is a legal
encoding (rule R65: a length above the capacity is a legal encoding with a failing operand). -/
def Instr.wf : Instr → Bool
  | .enc _ => true
  | .dec _ => true

end Sys2Proof
end

