-- ==== Sys2Proof/Decode.lean ====
section
/-! DEFINITION. Decoding a command word (rules R60 to R66) and, after it, encoding an instruction. A command is one 32-bit word written
to CSR 0; it never stands in a byte-addressed space, so no byte order enters (rule R47). -/

namespace Sys2Proof

/-- Why a command word is no instruction. -/
inductive DecodeError where
  /-- Some bit of RSV is 1 (rules R63, R65); the machine then completes the command with ERR_CMD. -/
  | reservedBits (rsv : BitVec 15)
  deriving DecidableEq, Repr

/-- One row of the opcode map of rule R64. -/
structure OpRow where
  mnemonic : String
  pattern : Word
  mask : Word
  deriving DecidableEq, Repr

/-- The row of ENC (rule R64). -/
def encRow : OpRow := { mnemonic := "ENC", pattern := 0x00000000#32, mask := 0xFFFF0000#32 }

/-- The row of DEC (rule R64). -/
def decRow : OpRow := { mnemonic := "DEC", pattern := 0x00010000#32, mask := 0xFFFF0000#32 }

/-- A word matches a row when the bits under the mask are the row's (rule R64). -/
def OpRow.matches (r : OpRow) (w : Word) : Bool := (w &&& r.mask) == r.pattern

/-- Total on every word: ENC, DEC, or illegal by its reserved bits (rules R64, R65). -/
def decode (w : Word) : Except DecodeError Instr :=
  if encRow.matches w then .ok (.enc (wordLen w))
  else if decRow.matches w then .ok (.dec (wordLen w))
  else .error (.reservedBits (wordRsv w))

/-- The command word of an instruction: RSV = 0, MODE, LEN from the most significant bit down (rule R60). -/
def encode : Instr → Word
  | .enc len => 0#15 ++ 0#1 ++ len
  | .dec len => 0#15 ++ 1#1 ++ len

/-- The command word whose low `nbits` bits are those of `w`, every bit above them 0. -/
def tableWord (nbits w : Nat) : Word := BitVec.ofNat 32 (w % 2 ^ nbits)

/-- What the decoder reads from the opcode table's numbering of a command word. -/
def decodeTableWord (nbits w : Nat) : Option Instr :=
  match decode (tableWord nbits w) with
  | .ok i => some i
  | .error _ => none

end Sys2Proof
end

