-- ==== Sys2Proof/Machine/State.lean ====
section
/-! DEFINITION. The state of the machine, plain data: the block's own state exactly as rule R10 lists it (`Block`), and beside it the
configuration, the host agent and the model's own fields (log entries 1, 3, 4, 5). -/

namespace Sys2Proof.Machine

/-- `MODE` (rule R13): 0 is encode, 1 is decode. -/
inductive Mode where
  | enc
  | dec
  deriving DecidableEq, Repr

/-- One entry `{V, VAL}` of the inverse table (rule R24). -/
structure InvEntry where
  /-- `V`: the entry is valid. -/
  v : Bool
  /-- `VAL`: the sextet. -/
  val : Sextet
  deriving DecidableEq, Repr

/-- A byte buffer: the bytes written since the last reset as (index, byte) pairs, indices strictly rising. An index that is not listed
holds no value (rule R187). -/
abbrev Memory := List Host.Cell

/-- The complete state of the block, component by component as rule R10 lists it. -/
structure Block where
  /-- The input buffer (rule R11). -/
  ibuf : Memory
  /-- The output buffer (rule R12). -/
  obuf : Memory
  /-- The mode of the current or last command (rule R13). -/
  mode : Mode
  /-- The length operand of the current or last command (rule R13). -/
  len : Half
  /-- The output length of the current or last command (rule R14). -/
  olen : Half
  /-- The index in IBUF of the next group (rule R15). -/
  iptr : Half
  /-- The index in OBUF of the next output byte (rule R16). -/
  optr : Half
  /-- The index of the character that made a DEC fail (rule R17). -/
  erridx : Half
  /-- `STATUS.BUSY` (rule R18). -/
  busy : Bool
  /-- `STATUS.DONE` (rule R19). -/
  done : Bool
  /-- `STATUS.ERR` (rule R20). -/
  err : Bool
  /-- `STATUS.ECODE` (rule R21). -/
  ecode : BitVec 3
  /-- `STATUS.TBLRDY` (rule R22). -/
  tblrdy : Bool
  /-- `STATUS.BSYWR` (rule R23). -/
  bsywr : Bool
  /-- The inverse table, indexed by a byte value (rule R24). -/
  inv : Vector InvEntry 256
  deriving DecidableEq, Repr

/-- The block right after `RESET` (rule R38). -/
def Block.reset : Block :=
  { ibuf := [], obuf := [], mode := .enc, len := 0#16, olen := 0#16, iptr := 0#16, optr := 0#16, erridx := 0#16,
    busy := true, done := false, err := false, ecode := 0#3, tblrdy := false, bsywr := false,
    inv := Vector.replicate 256 { v := false, val := 0#6 } }

/-- The five error conditions of a command (rules R160 to R165); the two that a DEC_GROUP raises carry the character's index. -/
inductive CmdError where
  /-- ERR_CMD, illegal command word (rule R161). -/
  | cmd
  /-- ERR_LEN, length above capacity (rule R162). -/
  | len
  /-- ERR_FMT, decode length not a multiple of 4 (rule R163). -/
  | fmt
  /-- ERR_CHAR, character outside the alphabet (rule R164). -/
  | char (index : Half)
  /-- ERR_PAD, pad character in an illegal position (rule R165). -/
  | pad (index : Half)
  deriving DecidableEq, Repr

/-- The five kinds of core step (rule R9 item 1). -/
inductive CoreStep where
  | init
  | encGroup
  | encFinish
  | decGroup
  | decFinish
  deriving DecidableEq, Repr

/-- The two agents (rule R9 item 1). -/
inductive Agent where
  | host
  | core
  deriving DecidableEq, Repr

/-- What the host does next: the five transactions of rule R80 in the notation of rule R70, and the polling line WAIT of rule R71,
which is a sequence of `RCSR 1` transactions whose number the core decides (log entry 12). -/
inductive HostLine where
  /-- `WCSR n, w` = HWCSR (rule R81). -/
  | wcsr (n : BitVec 3) (w : Word)
  /-- `RCSR n` = HRCSR (rule R82). -/
  | rcsr (n : BitVec 3)
  /-- `WIB i, b` = HWIB (rule R83). -/
  | wib (i : Half) (b : Byte)
  /-- `ROB i` = HROB (rule R84). -/
  | rob (i : Half)
  /-- `RST` = RESET (rule R85). -/
  | rst
  /-- `WAIT`: `RCSR 1` again and again until BUSY = 0 (rule R71). -/
  | wait
  deriving DecidableEq, Repr

/-- What a read of the host returned (rules R82, R84). -/
inductive Reply where
  | csr (n : BitVec 3) (w : Word)
  | ob (i : Half) (b : Byte)
  deriving DecidableEq, Repr

/-- The state of the whole machine. -/
structure State where
  /-- The parameters of rule R5. No step changes them (log entry 1). -/
  cfg : Config
  /-- The block (rule R10). -/
  blk : Block
  /-- The model's own counter of RESETs: it selects the free contents of bytes that hold no value (log entry 3). -/
  epoch : Nat
  /-- The host's lines still to be carried out, oldest first (rule R53 item 1; log entry 4). -/
  pending : List HostLine
  /-- Who moves, each time that both agents can (rule R53; log entry 5). -/
  turns : List Agent
  /-- What the host's reads returned, newest first (log entry 4). -/
  replies : List Reply
  deriving DecidableEq, Repr

/-- The machine right after reset: the block as rule R38 says, the parameters at their defaults (rule R5), a host with nothing to do. -/
def State.reset : State :=
  { cfg := Config.standard, blk := Block.reset, epoch := 0, pending := [], turns := [], replies := [] }

/-- Why the machine stops. The spec has no condition that stops the block; these three stand for a core access at an index that does
not exist (log entry 7). Rules R41 and R42 say that no reachable state has one. -/
inductive Fault where
  /-- A group step would read IBUF at an index at or above IBUF_SIZE. Raised by ENC_GROUP and DEC_GROUP. Safe: the run stops. -/
  | ibufOutside (index : Nat)
  /-- A core step would write OBUF at an index at or above OBUF_SIZE. Raised by ENC_GROUP, ENC_FINISH and DEC_GROUP. Safe: the run stops. -/
  | obufOutside (index : Nat)
  /-- ENC_FINISH would write a pad character below index 0 of OBUF (`OLEN` less than the pad count). Safe: the run stops. -/
  | obufBelow
  deriving DecidableEq, Repr

/-- Why the model gives no meaning. -/
inductive Refusal where
  /-- The instruction has no meaning yet; raised by `exec`'s arm alone. Safe: the run stops. No arm raises it now. -/
  | notModelled (mnemonic : String)
  deriving DecidableEq, Repr

/-- The outcome of a step of this machine. -/
abbrev Result := Host.Outcome State Fault Refusal

end Sys2Proof.Machine
end

