-- ==== Sys2Proof/Machine/Flags.lean ====
section
/-! DEFINITION. The status flags, the error codes, the CSR words the host reads and the output pins (rules R18 to R31, R36, R167). The block has
no arithmetic condition codes. -/

namespace Sys2Proof.Machine

/-- The code an error leaves in `STATUS.ECODE` (rule R167). -/
def CmdError.code : CmdError → BitVec 3
  | .cmd => 1#3
  | .len => 2#3
  | .fmt => 3#3
  | .char _ => 4#3
  | .pad _ => 5#3

/-- `MODE` as a bit (rule R13). -/
def Mode.bit : Mode → BitVec 1
  | .enc => 0#1
  | .dec => 1#1

/-- The mode a command word's bit 16 selects (rule R61). -/
def modeOfBit (b : Bool) : Mode := if b then .dec else .enc

/-- CSR 0 as read (rules R26, R82): 15 zero bits, MODE, LEN. -/
def cmdWord (b : Block) : Word := 0#15 ++ b.mode.bit ++ b.len

/-- CSR 1 as read (rules R27, R82): BSYWR bit 7, ECODE 6:4, TBLRDY 3, ERR 2, DONE 1, BUSY 0. -/
def statusWord (b : Block) : Word :=
  0#24 ++ BitVec.ofBool b.bsywr ++ b.ecode ++ BitVec.ofBool b.tblrdy ++ BitVec.ofBool b.err ++ BitVec.ofBool b.done ++ BitVec.ofBool b.busy

/-- CSR 4 as read (rule R30): DEC_SIZE above ENC_SIZE. -/
def capWord (c : Config) : Word := BitVec.ofNat 16 c.decSize ++ BitVec.ofNat 16 c.encSize

/-- The value of HRCSR(n) (rules R25 to R31, R82). -/
def readCsr (n : BitVec 3) (s : State) : Word :=
  if n = 0#3 then cmdWord s.blk
  else if n = 1#3 then statusWord s.blk
  else if n = 2#3 then s.blk.olen.setWidth 32
  else if n = 3#3 then s.blk.erridx.setWidth 32
  else if n = 4#3 then capWord s.cfg
  else 0#32

/-- The pin `busy` (rule R36). -/
def busyPin (s : State) : Bool := s.blk.busy

/-- The pin `done` (rule R36). -/
def donePin (s : State) : Bool := s.blk.done

/-- The pin `err` (rule R36). -/
def errPin (s : State) : Bool := s.blk.err

end Sys2Proof.Machine
end

