-- ==== Sys2Proof/Machine/Operands.lean ====
section
/-! DEFINITION. The constants and the pure datapath functions of 41_datapath_primitives.md (rules R100 to R115). Lengths and indices
are natural numbers here (rule R116 allows it). -/

namespace Sys2Proof.Machine

/-- Indices 0 to 15 of ALPHA (rule R100). -/
def alpha0 : Vector Byte 16 :=
  #v[0x41#8, 0x42#8, 0x43#8, 0x44#8, 0x45#8, 0x46#8, 0x47#8, 0x48#8, 0x49#8, 0x4A#8, 0x4B#8, 0x4C#8, 0x4D#8, 0x4E#8, 0x4F#8, 0x50#8]

/-- Indices 16 to 31 of ALPHA (rule R100). -/
def alpha1 : Vector Byte 16 :=
  #v[0x51#8, 0x52#8, 0x53#8, 0x54#8, 0x55#8, 0x56#8, 0x57#8, 0x58#8, 0x59#8, 0x5A#8, 0x61#8, 0x62#8, 0x63#8, 0x64#8, 0x65#8, 0x66#8]

/-- Indices 32 to 47 of ALPHA (rule R100). -/
def alpha2 : Vector Byte 16 :=
  #v[0x67#8, 0x68#8, 0x69#8, 0x6A#8, 0x6B#8, 0x6C#8, 0x6D#8, 0x6E#8, 0x6F#8, 0x70#8, 0x71#8, 0x72#8, 0x73#8, 0x74#8, 0x75#8, 0x76#8]

/-- Indices 48 to 63 of ALPHA (rule R100). -/
def alpha3 : Vector Byte 16 :=
  #v[0x77#8, 0x78#8, 0x79#8, 0x7A#8, 0x30#8, 0x31#8, 0x32#8, 0x33#8, 0x34#8, 0x35#8, 0x36#8, 0x37#8, 0x38#8, 0x39#8, 0x2B#8, 0x2F#8]

/-- `ALPHA`, the alphabet in index order (rule R100). -/
def alpha : Vector Byte 64 := alpha0 ++ alpha1 ++ alpha2 ++ alpha3

/-- `PAD`, the pad character (rule R101). -/
def pad : Byte := 0x3D#8

/-- `PADTAB` (rule R102). -/
def padTab : Vector (BitVec 2) 3 := #v[0#2, 2#2, 1#2]

/-- `sx2ch`, the alphabet mapper (rule R105). -/
def sx2ch (s : Sextet) : Byte := alpha.get ⟨s.toNat, s.isLt⟩

/-- `pack3` (rule R106). -/
def pack3 (a b c : Byte) : Group := a ++ b ++ c

/-- `sxt(w, k)`: sextet `k` of a group value, the most significant first (rule R107). -/
def sxt (w : Group) (k : Fin 4) : Sextet := w.extractLsb' (18 - 6 * k.val) 6

/-- `exp3to4`, the expander (rule R108). -/
def exp3to4 (a b c : Byte) : Vector Byte 4 :=
  #v[sx2ch (sxt (pack3 a b c) 0), sx2ch (sxt (pack3 a b c) 1), sx2ch (sxt (pack3 a b c) 2), sx2ch (sxt (pack3 a b c) 3)]

/-- `enc_len` (rule R109). -/
def encLen (n : Nat) : Nat := 4 * ((n + 2) / 3)

/-- `pad_count` (rule R110): `PADTAB[L mod 3]`. -/
def padCount (n : Nat) : Nat := (padTab.get ⟨n % 3, Nat.mod_lt n (by decide)⟩).toNat

/-- `inv_of` (rule R111): the entry of the one alphabet index that holds the character, else `{0, 0}`. -/
def invOf (c : Byte) : InvEntry :=
  match alpha.toList.findIdx? (fun a => a == c) with
  | some i => { v := true, val := BitVec.ofNat 6 i }
  | none => { v := false, val := 0#6 }

/-- `ch2sx` (rule R112): the lookup in a table. -/
def ch2sx (inv : Vector InvEntry 256) (c : Byte) : InvEntry := inv.get ⟨c.toNat, c.isLt⟩

/-- `join4` (rule R113). -/
def join4 (s0 s1 s2 s3 : Sextet) : Group := s0 ++ s1 ++ s2 ++ s3

/-- `oct(w, j)` (rule R113). -/
def oct (w : Group) (j : Fin 3) : Byte := w.extractLsb' (16 - 8 * j.val) 8

/-- The three octets of a group value in rising index order (rule R113). -/
def octets (w : Group) : List Byte := [oct w 0, oct w 1, oct w 2]

/-- `dec_pad(T, n)` (rule R114): the second test counts only when the first holds. -/
def decPad (t : Nat → Byte) (n : Nat) : Nat :=
  if n = 0 then 0
  else if t (n - 1) ≠ pad then 0
  else if t (n - 2) ≠ pad then 1
  else 2

/-- `dec_len(T, n)` (rule R114). -/
def decLen (t : Nat → Byte) (n : Nat) : Nat := 3 * (n / 4) - decPad t n

/-- `pad_legal(T, n, i)` (rule R115): the last index, or the one before it when the last is also a pad. -/
def padLegal (t : Nat → Byte) (n i : Nat) : Bool := i + 1 == n || (i + 2 == n && t (n - 1) == pad)

end Sys2Proof.Machine
end

