-- ==== Sys2Proof/Machine/Ops.lean ====
section
/-! DEFINITION. The named operations over buffers and registers, and the completion of a command with an error, written once (rule R166). -/

namespace Sys2Proof.Machine

/-- The byte at an index, none where no byte has been written since the last reset (rule R187). -/
def Memory.read? : Memory → Nat → Option Byte
  | [], _ => none
  | (k, v) :: m, a => if a = k then some v else Memory.read? m a

/-- Write one byte, keeping the indices strictly rising. -/
def Memory.write : Memory → Nat → Byte → Memory
  | [], a, b => [(a, b)]
  | (k, v) :: m, a, b =>
    if a < k then (a, b) :: (k, v) :: m
    else if a = k then (a, b) :: m
    else (k, v) :: Memory.write m a b

/-- `MemWrite`: write a list of bytes at rising indices (rule R8). -/
def Memory.writeList : Memory → Nat → List Byte → Memory
  | m, _, [] => m
  | m, a, b :: bs => Memory.writeList (Memory.write m a b) (a + 1) bs

/-- The canonical form of a buffer: indices strictly rising. -/
abbrev Memory.wf (m : Memory) : Prop := m.Pairwise (fun x y => x.1 < y.1)

/-- Every byte of the buffer lies below its size. -/
abbrev Memory.below (m : Memory) (size : Nat) : Prop := ∀ c ∈ m, c.1 < size

/-- What IBUF[i] holds: the byte last written, or the free value of a byte that holds none (rules R11, R187). -/
def State.ibufByte (s : State) (i : Nat) : Byte := (Memory.read? s.blk.ibuf i).getD (Config.freeIbuf s.epoch i)

/-- What OBUF[i] holds: the byte last written, or the free value of a byte that holds none (rules R12, R187). -/
def State.obufByte (s : State) (i : Nat) : Byte := (Memory.read? s.blk.obuf i).getD (Config.freeObuf s.epoch i)

/-- The value of HROB(i) (rules R51, R84): 0x00 at an index the buffer does not have. -/
def readObuf (i : Half) (s : State) : Byte := if i.toNat < s.cfg.obufSize then s.obufByte i.toNat else 0x00#8

/-- Replace the block's state, nothing else. -/
def State.setBlk (s : State) (b : Block) : State := { s with blk := b }

/-- Latch a command and clear the results of the one before (first half of rule R86). -/
def Block.latch (b : Block) (mode : Mode) (len : Half) : Block :=
  { b with mode := mode, len := len, done := false, err := false, ecode := 0#3, bsywr := false, erridx := 0#16, olen := 0#16, iptr := 0#16, optr := 0#16 }

/-- Accept a latched command: its output length is known and the core is busy with it (last lines of rule R86). -/
def Block.accept (b : Block) (olen : Nat) : Block := { b with olen := BitVec.ofNat 16 olen, busy := true }

/-- `ERRIDX` after an error: the character's index for ERR_CHAR and ERR_PAD, else what it was (rule R166). -/
def CmdError.erridx (e : CmdError) (old : Half) : Half :=
  match e with
  | .char i => i
  | .pad i => i
  | .cmd => old
  | .len => old
  | .fmt => old

/-- TAKING AN EXCEPTION on this hardware: the error completion that `raise E(info)` stands for (rule R166). Nothing is saved, no vector is
taken, no mode changes; the way back is the issue of the next command (rule R171), `Block.latch`. -/
def Block.raise (b : Block) (e : CmdError) : Block :=
  { b with err := true, ecode := e.code, erridx := e.erridx b.erridx, olen := 0#16, done := true, busy := false }

/-- Completion without error, the last two lines of both finish steps (rules R122, R138). -/
def Block.complete (b : Block) : Block := { b with busy := false, done := true }

/-- A host write that is dropped because the core is busy (rule R87). -/
def Block.dropWrite (b : Block) : Block := { b with bsywr := true }

end Sys2Proof.Machine
end

