-- ==== Sys2Proof/Machine/DecCommand.lean ====
section
/-! DEFINITION. The DEC command: its issue (rules R86, R87, R135) and its two core steps (rules R137, R138). -/

namespace Sys2Proof.Machine

/-- DEC: the host writes the word `DEC len` to CSR 0 (rules R81, R86, R135). While the core is busy the write is dropped (rule R87). -/
def execDec (len : Half) (s : State) : Result :=
  if s.blk.busy then .next (s.setBlk s.blk.dropWrite)
  else if s.cfg.decSize < len.toNat then .next (s.setBlk ((s.blk.latch .dec len).raise .len))
  else if len.toNat % 4 ≠ 0 then .next (s.setBlk ((s.blk.latch .dec len).raise .fmt))
  else .next (s.setBlk ((s.blk.latch .dec len).accept (decLen s.ibufByte len.toNat)))

/-- Classify the character at index `i` of a text `t` of length `n` (rule R137, part 1): a legal pad counts as sextet 0, an alphabet
character as its value, anything else is an error at `i`. -/
def classify (inv : Vector InvEntry 256) (t : Nat → Byte) (n i : Nat) : Except CmdError Sextet :=
  if t i = pad then
    if padLegal t n i then .ok 0#6 else .error (.pad (BitVec.ofNat 16 i))
  else if (ch2sx inv (t i)).v then .ok (ch2sx inv (t i)).val
  else .error (.char (BitVec.ofNat 16 i))

/-- Classify the four characters from index `i` in rising order; the first bad one decides (rule R137, part 1). -/
def classifyGroup (inv : Vector InvEntry 256) (t : Nat → Byte) (n i : Nat) : Except CmdError Group :=
  match classify inv t n i with
  | .error e => .error e
  | .ok s0 =>
    match classify inv t n (i + 1) with
    | .error e => .error e
    | .ok s1 =>
      match classify inv t n (i + 2) with
      | .error e => .error e
      | .ok s2 =>
        match classify inv t n (i + 3) with
        | .error e => .error e
        | .ok s3 => .ok (join4 s0 s1 s2 s3)

/-- The octets of a group that DEC_GROUP emits from OPTR: those for which the running output count is below OLEN (rule R137, part 2). -/
def State.emitted (s : State) (w : Group) : List Byte := (octets w).take (s.blk.olen.toNat - s.blk.optr.toNat)

/-- The end of a DEC_GROUP whose four characters are good: emit and advance (rule R137, part 2). -/
def decEmit (s : State) (w : Group) : Result :=
  if s.emitted w ≠ [] ∧ s.cfg.obufSize < s.blk.optr.toNat + (s.emitted w).length then
    .fault (.obufOutside (s.blk.optr.toNat + (s.emitted w).length - 1))
  else .next (s.setBlk { s.blk with
    obuf := Memory.writeList s.blk.obuf s.blk.optr.toNat (s.emitted w)
    optr := s.blk.optr + BitVec.ofNat 16 (s.emitted w).length
    iptr := s.blk.iptr + 4#16 })

/-- DEC_GROUP: decode one group, or stop at its first bad character (rule R137). -/
def decGroup (s : State) : Result :=
  if s.cfg.ibufSize ≤ s.blk.iptr.toNat + 3 then .fault (.ibufOutside (s.blk.iptr.toNat + 3))
  else if s.cfg.ibufSize ≤ s.blk.len.toNat - 1 then .fault (.ibufOutside (s.blk.len.toNat - 1))
  else
    match classifyGroup s.blk.inv s.ibufByte s.blk.len.toNat s.blk.iptr.toNat with
    | .error e => .next (s.setBlk (s.blk.raise e))
    | .ok w => decEmit s w

/-- DEC_FINISH: complete (rule R138). -/
def decFinish (s : State) : Result := .next (s.setBlk s.blk.complete)

end Sys2Proof.Machine
end

