-- ==== Sys2Proof/Machine/EncCommand.lean ====
section
/-! DEFINITION. The ENC command: its issue (rules R86, R87, R120) and its two core steps (rules R121, R122). -/

namespace Sys2Proof.Machine

/-- ENC: the host writes the word `ENC len` to CSR 0 (rules R81, R86, R120). While the core is busy the write is dropped (rule R87). -/
def execEnc (len : Half) (s : State) : Result :=
  if s.blk.busy then .next (s.setBlk s.blk.dropWrite)
  else if s.cfg.encSize < len.toNat then .next (s.setBlk ((s.blk.latch .enc len).raise .len))
  else .next (s.setBlk ((s.blk.latch .enc len).accept (encLen len.toNat)))

/-- Byte `k` of the group at IPTR, 0x00 where the index is not below LEN (rule R121). -/
def State.groupByte (s : State) (k : Nat) : Byte :=
  if s.blk.iptr.toNat + k < s.blk.len.toNat then s.ibufByte (s.blk.iptr.toNat + k) else 0x00#8

/-- The four characters of the group at IPTR (rule R121). -/
def State.groupChars (s : State) : Vector Byte 4 := exp3to4 (s.groupByte 0) (s.groupByte 1) (s.groupByte 2)

/-- The highest IBUF index that ENC_GROUP reads (rule R41): `IPTR + 2`, or `LEN - 1` in a partial group. -/
def State.encTop (s : State) : Nat := min (s.blk.iptr.toNat + 2) (s.blk.len.toNat - 1)

/-- ENC_GROUP: encode one group (rule R121). -/
def encGroup (s : State) : Result :=
  if s.cfg.ibufSize ≤ s.encTop then .fault (.ibufOutside s.encTop)
  else if s.cfg.obufSize ≤ s.blk.optr.toNat + 3 then .fault (.obufOutside (s.blk.optr.toNat + 3))
  else .next (s.setBlk { s.blk with
    obuf := Memory.writeList s.blk.obuf s.blk.optr.toNat s.groupChars.toList
    iptr := s.blk.iptr + 3#16
    optr := s.blk.optr + 4#16 })

/-- OBUF with `p` pad characters at the end of `n` characters and `TERM` after them (rule R122). -/
def padAndTerm (c : Config) (m : Memory) (n p : Nat) : Memory :=
  let m1 := if 1 ≤ p then Memory.write m (n - 1) pad else m
  let m2 := if p = 2 then Memory.write m1 (n - 2) pad else m1
  Memory.write m2 n c.term

/-- ENC_FINISH: pad, terminate, complete (rule R122). -/
def encFinish (s : State) : Result :=
  if s.blk.olen.toNat < padCount s.blk.len.toNat then .fault .obufBelow
  else if s.cfg.obufSize ≤ s.blk.olen.toNat then .fault (.obufOutside s.blk.olen.toNat)
  else .next (s.setBlk ({ s.blk with
    obuf := padAndTerm s.cfg s.blk.obuf s.blk.olen.toNat (padCount s.blk.len.toNat) } : Block).complete)

end Sys2Proof.Machine
end

