-- ==== Sys2Proof/Machine/Dispatch.lean ====
section
/-! DEFINITION. The meaning of each command: what the host's write of its word to CSR 0 does (rules R81, R86, R87). The core steps that carry an
accepted command out are steps of their own (Machine/Sequencer.lean), as rule R89 has them. -/

namespace Sys2Proof.Machine

def exec (i : Instr) (s : State) : Host.Outcome State Fault Refusal :=
  match i with
  | .enc len => Sys2Proof.Machine.execEnc len s
  | .dec len => Sys2Proof.Machine.execDec len s

end Sys2Proof.Machine
end

