-- ==== Sys2Proof/Machine/TableInit.lean ====
section
/-! DEFINITION. INIT, the building of the inverse table (rule R155). -/

namespace Sys2Proof.Machine

/-- `INV[ALPHA[i]] <- {V = 1, VAL = i}` (rule R155). -/
def setEntry (inv : Vector InvEntry 256) (i : Nat) : Vector InvEntry 256 :=
  inv.set (sx2ch (BitVec.ofNat 6 i)).toNat { v := true, val := BitVec.ofNat 6 i } (sx2ch (BitVec.ofNat 6 i)).isLt

/-- The 64 writes of INIT, `i` from 0 to 63 (rule R155). -/
def buildInv (inv : Vector InvEntry 256) : Vector InvEntry 256 := (List.range 64).foldl setEntry inv

/-- What INIT makes of the block (rule R155). -/
def Block.init (b : Block) : Block := { b with inv := buildInv b.inv, tblrdy := true, busy := false }

/-- INIT (rule R155). -/
def initStep (s : State) : Result := .next (s.setBlk s.blk.init)

end Sys2Proof.Machine
end

