-- ==== Sys2Proof/Machine/HostPort.lean ====
section
/-! DEFINITION. The host agent: the five transactions (rules R80 to R87) and the polling line WAIT (rule R71). -/

namespace Sys2Proof.Machine

/-- The issue of an illegal command word (rules R63, R86, R161): MODE and LEN are latched, the command completes with ERR_CMD. While busy the
write is dropped (rule R87). -/
def issueIllegal (w : Word) (s : State) : Result :=
  if s.blk.busy then .next (s.setBlk s.blk.dropWrite)
  else .next (s.setBlk ((s.blk.latch (modeOfBit (wordModeBit w)) (wordLen w)).raise .cmd))

/-- HWCSR(n, w): a write to CSR 0 is a command; every other number drops the write without any effect (rules R25, R81). -/
def hwcsr (n : BitVec 3) (w : Word) (s : State) : Result :=
  if n = 0#3 then
    match decode w with
    | .ok i => exec i s
    | .error _ => issueIllegal w s
  else .next s

/-- HRCSR(n): the host gets the word, the block is unchanged (rule R82). -/
def hrcsr (n : BitVec 3) (s : State) : State := { s with replies := .csr n (readCsr n s) :: s.replies }

/-- HWIB(i, b) (rules R51, R83, R87). -/
def hwib (i : Half) (b : Byte) (s : State) : State :=
  if s.blk.busy then s.setBlk s.blk.dropWrite
  else if i.toNat < s.cfg.ibufSize then s.setBlk { s.blk with ibuf := Memory.write s.blk.ibuf i.toNat b }
  else s

/-- HROB(i): the host gets the byte, the block is unchanged (rule R84). -/
def hrob (i : Half) (s : State) : State := { s with replies := .ob i (readObuf i s) :: s.replies }

/-- RESET: the block takes its reset values whatever it was doing (rules R85, R185, R186); what its buffers hold is unspecified anew. -/
def hreset (s : State) : State := { s with blk := Block.reset, epoch := s.epoch + 1 }

/-- One poll of WAIT: an `RCSR 1`, after which the line still stands if BUSY was 1 (rule R71). -/
def hwait (s : State) : State :=
  if s.blk.busy then { hrcsr 1#3 s with pending := .wait :: s.pending } else hrcsr 1#3 s

/-- Carry out one line of the host, already taken from the list (rules R70, R80). -/
def runLine (l : HostLine) (s : State) : Result :=
  match l with
  | .wcsr n w => hwcsr n w s
  | .rcsr n => .next (hrcsr n s)
  | .wib i b => .next (hwib i b s)
  | .rob i => .next (hrob i s)
  | .rst => .next (hreset s)
  | .wait => .next (hwait s)

/-- The host's action: its next line, or nothing when it has none. -/
def hostAct (s : State) : Result :=
  match s.pending with
  | [] => .next s
  | l :: rest => runLine l { s with pending := rest }

/-- Make `w` the command that the next step issues: the inverse table is built if it was not, the core is idle, and the host's next line
writes `w` to CSR 0 (log entry 8). -/
def placeCommand (w : Word) (s : State) : State :=
  let b := if s.blk.tblrdy then s.blk else s.blk.init
  { s with blk := { b with busy := false }, pending := .wcsr 0#3 w :: s.pending }

end Sys2Proof.Machine
end

