-- ==== Sys2Proof/Machine/Sequencer.lean ====
section
/-! DEFINITION. The core agent: which step is enabled and what it does (rules R89, R176). -/

namespace Sys2Proof.Machine

/-- The one core step that is enabled, if any (rule R176). -/
def enabledStep (b : Block) : Option CoreStep :=
  if !b.tblrdy then some .init
  else if !b.busy then none
  else
    match b.mode with
    | .enc => if b.iptr.toNat < b.len.toNat then some .encGroup else some .encFinish
    | .dec => if b.iptr.toNat < b.len.toNat then some .decGroup else some .decFinish

/-- Take a core step. -/
def runStep (k : CoreStep) (s : State) : Result :=
  match k with
  | .init => initStep s
  | .encGroup => encGroup s
  | .encFinish => encFinish s
  | .decGroup => decGroup s
  | .decFinish => decFinish s

/-- The core's action: the enabled step, or nothing when there is none. -/
def coreAct (s : State) : Result :=
  match enabledStep s.blk with
  | some k => runStep k s
  | none => .next s

end Sys2Proof.Machine
end

