-- ==== Sys2Proof/Machine/Schedule.lean ====
section
/-! DEFINITION. The interleaving of the two agents (rules R53, R176, R201; log entries 5 and 6). -/

namespace Sys2Proof.Machine

/-- The core has an enabled step. -/
def coreReady (s : State) : Bool := (enabledStep s.blk).isSome

/-- The host has a line to carry out. -/
def hostReady (s : State) : Bool := !s.pending.isEmpty

/-- Who acts next. Where only one agent can move it moves; where both can, `turns` says which, and the core moves when `turns` is used up
(rule R53: either may go first; rule R201: the core is not starved). -/
def nextAgent (s : State) : Option Agent :=
  if coreReady s && hostReady s then some (s.turns.headD .core)
  else if coreReady s then some .core
  else if hostReady s then some .host
  else none

/-- A turn is used up only where there was a choice. -/
def spendTurn (s : State) : State := if coreReady s && hostReady s then { s with turns := s.turns.tail } else s

/-- One atomic action of the execution (rule R53). With no core step enabled and no line left nothing happens (rule R191; log entry 6). -/
def act (s : State) : Result :=
  match nextAgent s with
  | some .core => coreAct (spendTurn s)
  | some .host => hostAct (spendTurn s)
  | none => .next s

end Sys2Proof.Machine
end

