-- ==== Sys2Proof/Machine/Step.lean ====
section
/-! DEFINITION. One step of the machine, and the state in which the next step runs a given command word. -/

namespace Sys2Proof.Machine

/-- One step: one atomic action of the host or of the core (rule R53). -/
def step (s : State) : Host.Outcome State Fault Refusal := Sys2Proof.Machine.act s

/-- `s` with the command word given in the opcode table's numbering standing where the next step issues it (log entry 8). -/
def State.withFetchWord (s : State) (nbits w : Nat) : State := Sys2Proof.Machine.placeCommand (Sys2Proof.tableWord nbits w) s

end Sys2Proof.Machine
end

