-- ==== Sys2Proof/Machine/HostProgram.lean ====
section
/-! DEFINITION. Host programs: the pseudo-operations of rule R71 and their expansion into the lines of rule R70. -/

namespace Sys2Proof.Machine

/-- A line of a host program (rules R70, R71). -/
inductive PseudoOp where
  /-- A primitive line, or WAIT. -/
  | line (l : HostLine)
  /-- `ENC n`. -/
  | enc (n : Half)
  /-- `DEC n`. -/
  | dec (n : Half)
  /-- `LDS "c0c1..."`: the characters as bytes. -/
  | lds (chars : List Byte)
  /-- `LDB b0 b1 ...`. -/
  | ldb (bytes : List Byte)
  /-- `RDS m`. -/
  | rds (m : Nat)
  deriving DecidableEq, Repr

/-- `WIB i, b0 ; WIB i+1, b1 ; ...`, the expansion of LDS and LDB from index `i` on (rule R71). DESIGN CHOICE (log entry 15): an item
past index 65535, to which the spec gives no meaning, goes to its index modulo 2^16. -/
def loadLines : Nat → List Byte → List HostLine
  | _, [] => []
  | i, b :: bs => .wib (BitVec.ofNat 16 i) b :: loadLines (i + 1) bs

/-- The expansion of one line (rule R71). DESIGN CHOICE (log entry 15): `RDS m` with `m > 65536` reads each index past 65535 modulo 2^16. -/
def expandOp : PseudoOp → List HostLine
  | .line l => [l]
  | .enc n => [.wcsr 0#3 (encode (.enc n))]
  | .dec n => [.wcsr 0#3 (encode (.dec n))]
  | .lds cs => loadLines 0 cs
  | .ldb bs => loadLines 0 bs
  | .rds m => (List.range m).map (fun i => .rob (BitVec.ofNat 16 i))

/-- The expansion of a host program (rule R70: its lines in order). -/
def expand (p : List PseudoOp) : List HostLine := p.flatMap expandOp

/-- A host that still has to carry out a program. -/
def State.withHost (s : State) (p : List PseudoOp) : State := { s with pending := s.pending ++ expand p }

end Sys2Proof.Machine
end

