-- ==== Sys2Proof/Machine/Ports.lean ====
section
/-! DEFINITION. The ports of rule R88 at the level of clock edges: which transactions one edge carries, in which order, and what the read ports show.
The step of the machine works on transactions (rule R88 says that a model does not need the signals); log entry 11. -/

namespace Sys2Proof.Machine

/-- The input ports at one rising edge of `clk` (rule R88). -/
structure EdgeIn where
  rst : Bool
  csrReq : Bool
  csrWe : Bool
  csrAddr : BitVec 3
  csrWdata : Word
  ibWe : Bool
  ibAddr : Half
  ibWdata : Byte
  deriving DecidableEq, Repr

/-- The transactions of one edge in their order: the CSR access, then the IBUF write; `rst` overrides every other request (rule R88, decision D2). -/
def edgeLines (e : EdgeIn) : List HostLine :=
  if e.rst then [.rst]
  else (if e.csrReq then [if e.csrWe then .wcsr e.csrAddr e.csrWdata else .rcsr e.csrAddr] else [])
    ++ (if e.ibWe then [.wib e.ibAddr e.ibWdata] else [])

/-- Carry out lines one after another, stopping at the first fault or refusal. -/
def runLines : List HostLine → State → Result
  | [], s => .next s
  | l :: ls, s =>
    match runLine l s with
    | .next t => runLines ls t
    | .fault f => .fault f
    | .refused r => .refused r

/-- One clock edge: its transactions, then a core step if the core takes one on this edge and one is enabled in the state those leave
(rule R88). Whether it takes one is not specified (rule R201), so it is an argument. With `rst` the edge is the RESET and nothing else, so
INIT does not run while `rst` stays 1 (rule R186). DESIGN CHOICE (log entry 16): on the first edge with `rst = 0` after it the core may take INIT
(rules R88 and R188) or not (the later reading of rule R186), by the argument. -/
def clockEdge (e : EdgeIn) (coreMoves : Bool) (s : State) : Result :=
  match runLines (edgeLines e) s with
  | .next t => if coreMoves && !e.rst then coreAct t else .next t
  | .fault f => .fault f
  | .refused r => .refused r

/-- `csr_rdata`: the value of HRCSR(csr_addr) for the state before the edge (rule R88). -/
def csrRdata (e : EdgeIn) (s : State) : Word := readCsr e.csrAddr s

/-- `ob_rdata`: the value of HROB(ob_addr) for the current state (rule R88). -/
def obRdata (obAddr : Half) (s : State) : Byte := readObuf obAddr s

end Sys2Proof.Machine
end

