-- ==== Sys2Proof/Safety.lean ====
section
/-! DEFINITION. The terms in which claims are stated: the invariant (rule R35), the phases of a command (rule R89), the closed forms of the results of
ENC and DEC (rules R68, R123, R139, R140), and runs. -/

namespace Sys2Proof.Machine

/-- A command is running (rule R89). -/
abbrev Block.running (b : Block) : Prop := b.tblrdy = true ∧ b.busy = true

/-- Idle and past INIT: premises P-RESET and P-IDLE of rule R192. -/
abbrev Block.idle (b : Block) : Prop := b.tblrdy = true ∧ b.busy = false

/-- A text read as a function of the index. -/
abbrev Text := Nat → Byte

/-- What holds in every state reachable from reset (rule R35), with the facts about buffers and lengths that make it inductive. -/
structure State.Inv (s : State) : Prop where
  /-- The parameters are in range (rule R5). -/
  cfg : s.cfg.wf
  /-- IBUF is in canonical form. -/
  ibufWf : s.blk.ibuf.wf
  /-- IBUF has IBUF_SIZE bytes (rule R11). -/
  ibufBelow : s.blk.ibuf.below s.cfg.ibufSize
  /-- OBUF is in canonical form. -/
  obufWf : s.blk.obuf.wf
  /-- OBUF has OBUF_SIZE bytes (rule R12). -/
  obufBelow : s.blk.obuf.below s.cfg.obufSize
  /-- Rule R35 item 1. -/
  notReady : s.blk.tblrdy = false → s.blk.busy = true ∧ s.blk.done = false ∧ s.blk.err = false ∧ s.blk.ecode = 0#3
  /-- Before INIT the table is as reset left it (rule R24). -/
  tableReset : s.blk.tblrdy = false → ∀ c : Byte, ch2sx s.blk.inv c = { v := false, val := 0#6 }
  /-- Rule R35 item 2. -/
  doneIdle : s.blk.done = true → s.blk.busy = false
  /-- Rule R35 item 3. -/
  errDone : s.blk.err = true → s.blk.done = true ∧ s.blk.ecode ≠ 0#3 ∧ s.blk.olen = 0#16
  /-- Rule R35 item 4. -/
  noErr : s.blk.err = false → s.blk.ecode = 0#3 ∧ s.blk.erridx = 0#16
  /-- Rule R35 item 5. -/
  ecodeLe : s.blk.ecode.toNat ≤ 5
  /-- Rule R35 item 6, first half. -/
  issueErr : s.blk.ecode = 1#3 ∨ s.blk.ecode = 2#3 ∨ s.blk.ecode = 3#3 → s.blk.erridx = 0#16
  /-- Rule R35 item 6, second half. -/
  groupErr : s.blk.ecode = 4#3 ∨ s.blk.ecode = 5#3 →
    s.blk.mode = .dec ∧ s.blk.erridx.toNat < s.blk.len.toNat ∧
      s.blk.iptr.toNat ≤ s.blk.erridx.toNat ∧ s.blk.erridx.toNat < s.blk.iptr.toNat + 4
  /-- Rule R35 item 7, ENC. -/
  encLenOk : s.blk.running → s.blk.mode = .enc → s.blk.len.toNat ≤ s.cfg.encSize
  /-- Rule R35 item 7, DEC. -/
  decLenOk : s.blk.running → s.blk.mode = .dec → s.blk.len.toNat ≤ s.cfg.decSize ∧ s.blk.len.toNat % 4 = 0
  /-- Rule R35 item 8. -/
  encPtrs : s.blk.running → s.blk.mode = .enc →
    s.blk.iptr.toNat % 3 = 0 ∧ s.blk.optr.toNat = 4 * (s.blk.iptr.toNat / 3) ∧
      s.blk.olen.toNat = encLen s.blk.len.toNat ∧ s.blk.iptr.toNat ≤ 3 * ((s.blk.len.toNat + 2) / 3)
  /-- Rule R35 item 9. -/
  decPtrs : s.blk.running → s.blk.mode = .dec →
    s.blk.iptr.toNat % 4 = 0 ∧ s.blk.iptr.toNat ≤ s.blk.len.toNat ∧
      s.blk.optr.toNat = min s.blk.olen.toNat (3 * (s.blk.iptr.toNat / 4))
  /-- Rule R35 item 10. -/
  tableBuilt : s.blk.tblrdy = true → ∀ c : Byte, ch2sx s.blk.inv c = invOf c
  /-- `OLEN` never exceeds DEC_SIZE (rule R14). -/
  olenLe : s.blk.olen.toNat ≤ s.cfg.decSize

/-- `B'` of rule R123: the input bytes followed by zero bytes. -/
def zeroFilled (t : Text) (n i : Nat) : Byte := if i < n then t i else 0x00#8

/-- Character `j` of the unpadded text of an `n`-byte input (rule R123). -/
def encChar (t : Text) (n j : Nat) : Byte :=
  (exp3to4 (zeroFilled t n (3 * (j / 4))) (zeroFilled t n (3 * (j / 4) + 1)) (zeroFilled t n (3 * (j / 4) + 2))).get
    ⟨j % 4, Nat.mod_lt j (by decide)⟩

/-- Character `j` of the text that ENC makes of an `n`-byte input, `j < enc_len(n)`: the last `pad_count(n)` are PAD (rule R123). -/
def encText (t : Text) (n j : Nat) : Byte := if j < encLen n - padCount n then encChar t n j else pad

/-- `s(j, k)` of rule R139: the sextet of the character at an index. -/
def textSextet (t : Text) (i : Nat) : Sextet := if t i = pad then 0#6 else (invOf (t i)).val

/-- `w(j)` of rule R139: the value of text group `j`. -/
def textGroup (t : Text) (j : Nat) : Group :=
  join4 (textSextet t (4 * j)) (textSextet t (4 * j + 1)) (textSextet t (4 * j + 2)) (textSextet t (4 * j + 3))

/-- `Y[i]` of rule R139: decoded byte `i`. -/
def decByte (t : Text) (i : Nat) : Byte := oct (textGroup t (i / 3)) ⟨i % 3, Nat.mod_lt i (by decide)⟩

/-- An index is bad when it holds an illegal pad or a byte outside the alphabet (rule R140). -/
def badIndex (t : Text) (n i : Nat) : Prop := (t i = pad ∧ padLegal t n i = false) ∨ (t i ≠ pad ∧ (invOf (t i)).v = false)

/-- A well-formed text of length `n` (rule R68). -/
def wellFormedText (t : Text) (n : Nat) : Prop :=
  n % 4 = 0 ∧ (∀ i < n, t i = pad ∨ ∃ k : Sextet, sx2ch k = t i) ∧
    (∀ i < n, t i = pad → i + 1 = n ∨ (i + 2 = n ∧ t (n - 1) = pad))

/-- `u` differs from `t`, texts of length `n` that end in a pad, in unused bits alone: in the bits of the last data character that fall in a dropped byte
(rule R142). They are the low 4 bits of its sextet before two pads and the low 2 bits before one; the character stays one of the alphabet. -/
def differsInUnusedBits (t u : Text) (n : Nat) : Prop :=
  0 < n ∧ t (n - 1) = pad ∧
    ((t (n - 2) = pad ∧ (∀ i < n, i ≠ n - 3 → u i = t i) ∧ (∃ k : Sextet, sx2ch k = u (n - 3)) ∧
        (textSextet u (n - 3)).extractLsb' 4 2 = (textSextet t (n - 3)).extractLsb' 4 2) ∨
      (t (n - 2) ≠ pad ∧ (∀ i < n, i ≠ n - 2 → u i = t i) ∧ (∃ k : Sextet, sx2ch k = u (n - 2)) ∧
        (textSextet u (n - 2)).extractLsb' 2 4 = (textSextet t (n - 2)).extractLsb' 2 4))

/-- The error that the character at a bad index makes (rules R137, R140). -/
def badError (t : Text) (i : Nat) : CmdError := if t i = pad then .pad (BitVec.ofNat 16 i) else .char (BitVec.ofNat 16 i)

/-- A command that failed at its issue with code `e` (rules R86, R166). -/
abbrev Block.failedAtIssue (b : Block) (e : BitVec 3) : Prop :=
  b.err = true ∧ b.ecode = e ∧ b.olen = 0#16 ∧ b.done = true ∧ b.busy = false

/-- An ENC of the `n` bytes `t` is running and the groups before IPTR are done: `OBUF[0 .. OPTR-1]` holds their characters (rule R121). -/
structure State.EncProgress (s : State) (t : Text) (n : Nat) : Prop where
  running : s.blk.running
  mode : s.blk.mode = .enc
  len : s.blk.len.toNat = n
  input : ∀ i < n, s.ibufByte i = t i
  output : ∀ j < s.blk.optr.toNat, s.obufByte j = encChar t n j

/-- An ENC of the `n` bytes `t` has completed: the result of rule R123 as software sees it. -/
structure State.EncDone (s : State) (t : Text) (n : Nat) : Prop where
  status : s.blk.busy = false ∧ s.blk.done = true ∧ s.blk.err = false
  olen : s.blk.olen.toNat = encLen n
  text : ∀ j < encLen n, s.obufByte j = encText t n j
  sentinel : s.obufByte (encLen n) = s.cfg.term

/-- A DEC of the `n` characters `t` is running and the groups before IPTR are done, all of them good (rule R137). -/
structure State.DecProgress (s : State) (t : Text) (n : Nat) : Prop where
  running : s.blk.running
  mode : s.blk.mode = .dec
  len : s.blk.len.toNat = n
  olen : s.blk.olen.toNat = decLen t n
  input : ∀ i < n, s.ibufByte i = t i
  good : ∀ i < s.blk.iptr.toNat, ¬ badIndex t n i
  output : ∀ j < s.blk.optr.toNat, s.obufByte j = decByte t j

/-- A DEC of the `n` characters `t` has completed without error: no character is bad and OBUF holds the bytes (rule R139). -/
structure State.DecDone (s : State) (t : Text) (n : Nat) : Prop where
  status : s.blk.busy = false ∧ s.blk.done = true ∧ s.blk.err = false
  good : ∀ i < n, ¬ badIndex t n i
  olen : s.blk.olen.toNat = decLen t n
  bytes : ∀ j < decLen t n, s.obufByte j = decByte t j

/-- A DEC of the `n` characters `t` has failed at its lowest bad index (rule R140). -/
structure State.DecFailed (s : State) (t : Text) (n : Nat) : Prop where
  status : s.blk.busy = false ∧ s.blk.done = true ∧ s.blk.err = true
  olen : s.blk.olen = 0#16
  bad : s.blk.erridx.toNat < n ∧ badIndex t n s.blk.erridx.toNat
  lowest : ∀ i < s.blk.erridx.toNat, ¬ badIndex t n i
  code : s.blk.ecode = (badError t s.blk.erridx.toNat).code
  leftBehind : ∀ j < 3 * (s.blk.erridx.toNat / 4), s.obufByte j = decByte t j

/-- `k` steps of the machine. -/
abbrev run (k : Nat) (s : State) : Result := Sys2Proof.core.run k s

/-- The host acts in the next step and its line is `l`. -/
abbrev State.hostActs (s : State) (l : HostLine) (rest : List HostLine) : Prop := nextAgent s = some .host ∧ s.pending = l :: rest

/-- The state in which the host carries out its line: the line taken from the list, a turn used up if there was a choice. -/
def State.popped (s : State) (rest : List HostLine) : State := { spendTurn s with pending := rest }

end Sys2Proof.Machine
end

