-- ==== Sys2Proof/Certificates/Slice0/Obligations.lean ====
section
/-! DEFINITION. The statements for the provers, each from the rules of spec/ that its docstring names. `step` is one atomic action; `exec i` is the
host's write of the command `i` to CSR 0. A statement about a core step has the premise that the core acts (`nextAgent`), one about a line of the host that the host acts (`hostActs`): who
acts, the host's list and its replies are the model's form for what spec/ leaves to the agents (log entries 4 and 5). -/

open Sys2Proof
open Sys2Proof.Machine

/-! ### Reset and INIT -/

/-- Rule R38: the state after RESET, register by register; the buffers hold no value; INIT is the only enabled core step. -/
def Obligations.ResetStateValues : Prop :=
  State.reset.blk.mode = .enc ∧ State.reset.blk.len = 0#16 ∧ State.reset.blk.olen = 0#16 ∧ State.reset.blk.iptr = 0#16 ∧
  State.reset.blk.optr = 0#16 ∧ State.reset.blk.erridx = 0#16 ∧ State.reset.blk.busy = true ∧ State.reset.blk.done = false ∧
  State.reset.blk.err = false ∧ State.reset.blk.ecode = 0#3 ∧ State.reset.blk.tblrdy = false ∧ State.reset.blk.bsywr = false ∧
  (∀ c : Byte, ch2sx State.reset.blk.inv c = { v := false, val := 0#6 }) ∧
  (∀ i, Memory.read? State.reset.blk.ibuf i = none ∧ Memory.read? State.reset.blk.obuf i = none) ∧
  enabledStep State.reset.blk = some .init

/-- Rule R85: RESET from any state, busy or not: the block takes its reset values. The parameters are not affected. Nothing is said of the model's own
counter `epoch` (log entry 3). -/
def Obligations.ResetTakesEffectInAnyState : Prop :=
  ∀ (s : State) (rest : List HostLine), s.hostActs .rst rest →
    ∃ t, step s = .next t ∧ t = { s.popped rest with blk := State.reset.blk, epoch := t.epoch }

/-- Rule R155: INIT writes the 64 entries of the alphabet characters, keeps the 192 others, sets TBLRDY, clears BUSY and changes nothing else; it is
then not enabled again. -/
def Obligations.InitBuildsInverseTable : Prop :=
  ∀ s : State, s.blk.tblrdy = false → nextAgent s = some .core →
    ∃ t, step s = .next t ∧ t = { spendTurn s with blk := { s.blk with inv := t.blk.inv, tblrdy := true, busy := false } } ∧
      (∀ k : Sextet, ch2sx t.blk.inv (sx2ch k) = { v := true, val := k }) ∧
      (∀ c : Byte, (∀ k : Sextet, sx2ch k ≠ c) → ch2sx t.blk.inv c = ch2sx s.blk.inv c) ∧ enabledStep t.blk = none

/-- 44_table_init.md, the contents of INV in full, by ranges of the byte value. -/
def Obligations.InverseTableByRanges : Prop :=
  ∀ c : Byte, invOf c =
    if 0x41 ≤ c.toNat ∧ c.toNat ≤ 0x5A then { v := true, val := BitVec.ofNat 6 (c.toNat - 0x41) }
    else if 0x61 ≤ c.toNat ∧ c.toNat ≤ 0x7A then { v := true, val := BitVec.ofNat 6 (c.toNat - 0x61 + 26) }
    else if 0x30 ≤ c.toNat ∧ c.toNat ≤ 0x39 then { v := true, val := BitVec.ofNat 6 (c.toNat - 0x30 + 52) }
    else if c.toNat = 0x2B then { v := true, val := 62#6 }
    else if c.toNat = 0x2F then { v := true, val := 63#6 }
    else { v := false, val := 0#6 }

/-- 44_table_init.md: INV is read-only after INIT; only RESET clears it. -/
def Obligations.TableReadOnlyUntilReset : Prop :=
  ∀ s t : State, s.blk.tblrdy = true → step s = .next t →
    (t.blk.inv = s.blk.inv ∧ t.blk.tblrdy = true) ∨
      ((∃ rest, s.hostActs .rst rest) ∧ t.blk = State.reset.blk)

/-! ### Datapath functions -/

/-- 41_datapath_primitives.md, table laws: the table is the exact inverse of the alphabet on its domain. -/
def Obligations.AlphabetAndTableInverse : Prop :=
  (∀ k : Sextet, invOf (sx2ch k) = { v := true, val := k }) ∧
  (∀ (c : Byte) (k : Sextet), invOf c = { v := true, val := k } → sx2ch k = c) ∧
  (∀ k : Sextet, sx2ch k ≠ pad)

/-- Rules R106, R107, R113: packing and slicing by the spec's arithmetic formulas. -/
def Obligations.GroupSlicesByFormula : Prop :=
  (∀ a b c : Byte, (pack3 a b c).toNat = a.toNat * 2 ^ 16 + b.toNat * 2 ^ 8 + c.toNat) ∧
  (∀ (w : Group) (k : Fin 4), (sxt w k).toNat = (w.toNat >>> (18 - 6 * k.val)) &&& 0x3F) ∧
  (∀ s0 s1 s2 s3 : Sextet, (join4 s0 s1 s2 s3).toNat = s0.toNat * 2 ^ 18 + s1.toNat * 2 ^ 12 + s2.toNat * 2 ^ 6 + s3.toNat) ∧
  (∀ (w : Group) (j : Fin 3), (oct w j).toNat = (w.toNat >>> (16 - 8 * j.val)) &&& 0xFF)

/-- 41_datapath_primitives.md, group laws: expander and compressor undo each other. -/
def Obligations.GroupSplitAndJoinInverse : Prop :=
  (∀ w : Group, join4 (sxt w 0) (sxt w 1) (sxt w 2) (sxt w 3) = w) ∧
  (∀ a b c : Byte, oct (pack3 a b c) 0 = a ∧ oct (pack3 a b c) 1 = b ∧ oct (pack3 a b c) 2 = c) ∧
  (∀ s0 s1 s2 s3 : Sextet, sxt (join4 s0 s1 s2 s3) 0 = s0 ∧ sxt (join4 s0 s1 s2 s3) 1 = s1 ∧
    sxt (join4 s0 s1 s2 s3) 2 = s2 ∧ sxt (join4 s0 s1 s2 s3) 3 = s3)

/-- Rules R102, R109: the encode length law with the spec's values and its 16-bit bounds, and the pad-count table. -/
def Obligations.EncodeLengthAndPadTable : Prop :=
  (∀ n, encLen n = 4 * ((n + 2) / 3) ∧ encLen n = 4 * ((n + 3 - 1) / 3) ∧ encLen n % 4 = 0) ∧
  encLen 0 = 0 ∧ encLen 1 = 4 ∧ encLen 2 = 4 ∧ encLen 3 = 4 ∧ encLen 4 = 8 ∧ encLen 60 = 80 ∧
  (∀ c : Config, encLen c.encSize = c.decSize) ∧
  (∀ (c : Config) (n : Nat), c.wf → n ≤ c.encSize → n + 2 ≤ 49151 ∧ (n + 2) / 3 ≤ 16383 ∧ encLen n ≤ 65532) ∧
  padTab.toList.map BitVec.toNat = [0, 2, 1] ∧
  (∀ n, (n % 3 = 0 → padCount n = 0) ∧ (n % 3 = 1 → padCount n = 2) ∧ (n % 3 = 2 → padCount n = 1))

/-- Rules R114, R115: the pads at the end of a text, the decode length law, and the legal positions of a pad. -/
def Obligations.DecodeLengthAndPadPositions : Prop :=
  ∀ (t : Text) (n : Nat), n % 4 = 0 →
    (n = 0 → decPad t n = 0) ∧
    (0 < n → t (n - 1) ≠ pad → decPad t n = 0) ∧
    (0 < n → t (n - 1) = pad → t (n - 2) ≠ pad → decPad t n = 1) ∧
    (0 < n → t (n - 1) = pad → t (n - 2) = pad → decPad t n = 2) ∧
    decLen t n + decPad t n = 3 * (n / 4) ∧
    (∀ i < n, padLegal t n i = true ↔ (i = n - 1 ∨ (i = n - 2 ∧ t (n - 1) = pad)))

/-! ### Encoding -/

/-- Rule R64: a word is ENC or DEC by the mask 0xFFFF0000, illegal otherwise. -/
def Obligations.DecodeByMask : Prop :=
  ∀ w : Word,
    (w &&& 0xFFFF0000#32 = 0x00000000#32 → decode w = .ok (.enc (w.extractLsb' 0 16))) ∧
    (w &&& 0xFFFF0000#32 = 0x00010000#32 → decode w = .ok (.dec (w.extractLsb' 0 16))) ∧
    (w &&& 0xFFFF0000#32 ≠ 0x00000000#32 → w &&& 0xFFFF0000#32 ≠ 0x00010000#32 →
      decode w = .error (.reservedBits (w.extractLsb' 17 15)))

/-- 30_encoding.md: decoding and encoding agree in both directions, for every instruction with every operand and for every word; the words that are no
instruction's are exactly those with a reserved bit set. -/
def Obligations.DecodeEncodeAgree : Prop :=
  (∀ (w : Word) (i : Instr), decode w = .ok i ↔ encode i = w) ∧
  (∀ w : Word, (∃ i, encode i = w) ↔ w.extractLsb' 17 15 = 0#15)

/-- 30_encoding.md and 95_test_vectors.md: command words written out by hand. -/
def Obligations.SampleWordsDecode : Prop :=
  decode 0x00000003#32 = .ok (.enc 3#16) ∧ decode 0x0000003C#32 = .ok (.enc 60#16) ∧ decode 0x00010004#32 = .ok (.dec 4#16) ∧
  decode 0x00010050#32 = .ok (.dec 80#16) ∧ decode 0x0001FFFF#32 = .ok (.dec 0xFFFF#16) ∧
  decode 0x00020051#32 = .error (.reservedBits 1#15) ∧ decode 0x80000003#32 = .error (.reservedBits 0x4000#15)

/-! ### Issue of a command -/

/-- A step of the host that writes a legal command word to CSR 0 is `exec` of the decoded instruction, on the state with the host's line taken. -/
def Obligations.StepRunsDecodedCommand : Prop :=
  ∀ (s : State) (w : Word) (i : Instr) (rest : List HostLine),
    s.hostActs (.wcsr 0#3 w) rest → decode w = .ok i → step s = exec i (s.popped rest)

/-- The state in which a command is placed runs it in the very next step (the model's own convention, log entry 8). -/
def Obligations.PlacedCommandRunsNext : Prop :=
  ∀ (s : State) (nbits w : Nat) (i : Instr), decodeTableWord nbits w = some i →
    step (s.withFetchWord nbits w) = exec i { s.withFetchWord nbits w with pending := s.pending }

/-- 42_encode.md, ENC, issue: an ENC within the capacity, written while the core is idle, is accepted; this is the whole next state. -/
def Obligations.EncIssueAccepted : Prop :=
  ∀ (s : State) (len : Half), s.blk.busy = false → len.toNat ≤ s.cfg.encSize →
    exec (.enc len) s = .next { s with blk := { s.blk with
      mode := .enc, len := len, olen := BitVec.ofNat 16 (4 * ((len.toNat + 2) / 3)), iptr := 0#16, optr := 0#16, erridx := 0#16,
      busy := true, done := false, err := false, ecode := 0#3, bsywr := false } }

/-- 43_decode.md, DEC, issue: a DEC within the capacity and of a length that is a multiple of 4, written while the core is idle, is accepted; this is
the whole next state. -/
def Obligations.DecIssueAccepted : Prop :=
  ∀ (s : State) (len : Half), s.blk.busy = false → len.toNat ≤ s.cfg.decSize → len.toNat % 4 = 0 →
    exec (.dec len) s = .next { s with blk := { s.blk with
      mode := .dec, len := len, olen := BitVec.ofNat 16 (decLen s.ibufByte len.toNat), iptr := 0#16, optr := 0#16, erridx := 0#16,
      busy := true, done := false, err := false, ecode := 0#3, bsywr := false } }

/-- Rule R86: the issue of any word while idle: what is latched and cleared, the tests in their order, what is not touched. -/
def Obligations.IssueLatchesClearsAndValidates : Prop :=
  ∀ (s : State) (w : Word) (rest : List HostLine), s.cfg.wf → s.hostActs (.wcsr 0#3 w) rest → s.blk.busy = false →
    ∃ t, step s = .next t ∧ t = { s.popped rest with blk := t.blk } ∧
      t.blk.mode = (if w.getLsbD 16 then .dec else .enc) ∧ t.blk.len = w.extractLsb' 0 16 ∧
      t.blk.bsywr = false ∧ t.blk.erridx = 0#16 ∧ t.blk.iptr = 0#16 ∧ t.blk.optr = 0#16 ∧
      t.blk.ibuf = s.blk.ibuf ∧ t.blk.obuf = s.blk.obuf ∧ t.blk.inv = s.blk.inv ∧ t.blk.tblrdy = s.blk.tblrdy ∧
      (if w.extractLsb' 17 15 ≠ 0#15 then t.blk.failedAtIssue 1#3
      else if w.getLsbD 16 = false ∧ s.cfg.encSize < (w.extractLsb' 0 16).toNat then t.blk.failedAtIssue 2#3
      else if w.getLsbD 16 = true ∧ s.cfg.decSize < (w.extractLsb' 0 16).toNat then t.blk.failedAtIssue 2#3
      else if w.getLsbD 16 = true ∧ (w.extractLsb' 0 16).toNat % 4 ≠ 0 then t.blk.failedAtIssue 3#3
      else t.blk.busy = true ∧ t.blk.done = false ∧ t.blk.err = false ∧ t.blk.ecode = 0#3 ∧
        t.blk.olen.toNat = (if w.getLsbD 16 then decLen s.ibufByte (w.extractLsb' 0 16).toNat else encLen (w.extractLsb' 0 16).toNat))

/-- Rule R161: a word with a reserved bit set fails with ERR_CMD, for either value of bit 16. -/
def Obligations.IllegalWordFailsWithErrCmd : Prop :=
  ∀ (s : State) (w : Word) (rest : List HostLine), s.hostActs (.wcsr 0#3 w) rest → s.blk.busy = false → w.extractLsb' 17 15 ≠ 0#15 →
    step s = .next { s.popped rest with blk := { s.blk with
      mode := (if w.getLsbD 16 then .dec else .enc), len := w.extractLsb' 0 16, olen := 0#16, iptr := 0#16, optr := 0#16, erridx := 0#16,
      busy := false, done := true, err := true, ecode := 1#3, bsywr := false } }

/-- Rule R162: a length above the capacity of its mode fails with ERR_LEN. -/
def Obligations.LengthAboveCapacityFails : Prop :=
  ∀ (s : State) (len : Half), s.blk.busy = false →
    (s.cfg.encSize < len.toNat → exec (.enc len) s = .next { s with blk := { s.blk with
      mode := .enc, len := len, olen := 0#16, iptr := 0#16, optr := 0#16, erridx := 0#16,
      busy := false, done := true, err := true, ecode := 2#3, bsywr := false } }) ∧
    (s.cfg.decSize < len.toNat → exec (.dec len) s = .next { s with blk := { s.blk with
      mode := .dec, len := len, olen := 0#16, iptr := 0#16, optr := 0#16, erridx := 0#16,
      busy := false, done := true, err := true, ecode := 2#3, bsywr := false } })

/-- Rule R163: a DEC length within the capacity that is not a multiple of 4 fails with ERR_FMT, and ENC never does. -/
def Obligations.DecodeLengthNotMultipleOfFourFails : Prop :=
  ∀ (s : State) (len : Half), s.blk.busy = false →
    (len.toNat ≤ s.cfg.decSize → len.toNat % 4 ≠ 0 → exec (.dec len) s = .next { s with blk := { s.blk with
      mode := .dec, len := len, olen := 0#16, iptr := 0#16, optr := 0#16, erridx := 0#16,
      busy := false, done := true, err := true, ecode := 3#3, bsywr := false } }) ∧
    (∀ t, exec (.enc len) s = .next t → t.blk.ecode ≠ 3#3)

/-- Rule R87: while the core is busy a write to CSR 0, whatever the word, and a write to IBUF, whatever the index, change BSYWR and nothing else, and
BSYWR then stays 1 until the next issue or reset. -/
def Obligations.HostWriteWhileBusyDropped : Prop :=
  (∀ (s : State) (l : HostLine) (rest : List HostLine), s.hostActs l rest → s.blk.busy = true →
    ((∃ w, l = .wcsr 0#3 w) ∨ (∃ i b, l = .wib i b)) →
    step s = .next { s.popped rest with blk := { s.blk with bsywr := true } }) ∧
  (∀ s t : State, s.blk.bsywr = true → step s = .next t →
    t.blk.bsywr = true ∨ (∃ rest, s.hostActs .rst rest) ∨ (∃ w rest, s.hostActs (.wcsr 0#3 w) rest ∧ s.blk.busy = false))

/-- The same of `exec`: a command written while the core is busy is dropped (rule R87 seen at the instruction). -/
def Obligations.CommandWhileBusyDropped : Prop :=
  ∀ (i : Instr) (s : State), s.blk.busy = true → exec i s = .next { s with blk := { s.blk with bsywr := true } }

/-- What the issue of ENC and DEC leaves unchanged, on every path: every byte of both buffers, the table, TBLRDY, the parameters, the host. -/
def Obligations.IssueFrame : Prop :=
  ∀ (i : Instr) (s t : State), exec i s = .next t →
    t = { s with blk := t.blk } ∧ t.blk.inv = s.blk.inv ∧ t.blk.tblrdy = s.blk.tblrdy ∧
    (∀ x, Memory.read? t.blk.ibuf x = Memory.read? s.blk.ibuf x ∧ t.ibufByte x = s.ibufByte x) ∧
    (∀ x, Memory.read? t.blk.obuf x = Memory.read? s.blk.obuf x ∧ t.obufByte x = s.obufByte x)

/-- 10_state.md: after a command word is written while idle, CSR 0 reads back MODE and LEN and 0 above them, whether or not the command was valid. -/
def Obligations.CommandReadsBack : Prop :=
  ∀ (s t : State) (w : Word) (rest : List HostLine), s.hostActs (.wcsr 0#3 w) rest → s.blk.busy = false → step s = .next t →
    readCsr 0#3 t = w &&& 0x0001FFFF#32

/-! ### Core steps -/

/-- 60_exceptions.md: in every state at most one core step is enabled, by TBLRDY, BUSY, MODE, IPTR and LEN alone. -/
def Obligations.EnabledCoreStep : Prop :=
  ∀ b : Block,
    (enabledStep b = some .init ↔ b.tblrdy = false) ∧
    (enabledStep b = some .encGroup ↔ b.running ∧ b.mode = .enc ∧ b.iptr.toNat < b.len.toNat) ∧
    (enabledStep b = some .encFinish ↔ b.running ∧ b.mode = .enc ∧ b.len.toNat ≤ b.iptr.toNat) ∧
    (enabledStep b = some .decGroup ↔ b.running ∧ b.mode = .dec ∧ b.iptr.toNat < b.len.toNat) ∧
    (enabledStep b = some .decFinish ↔ b.running ∧ b.mode = .dec ∧ b.len.toNat ≤ b.iptr.toNat) ∧
    (enabledStep b = none ↔ b.tblrdy = true ∧ b.busy = false)

/-- Rule R121: ENC_GROUP. -/
def Obligations.EncGroupEncodesThreeBytes : Prop :=
  ∀ s : State, s.Inv → s.blk.running → s.blk.mode = .enc → s.blk.iptr.toNat < s.blk.len.toNat → nextAgent s = some .core →
    ∃ t, step s = .next t ∧
      t = { spendTurn s with blk := { s.blk with obuf := t.blk.obuf, iptr := t.blk.iptr, optr := t.blk.optr } } ∧
      t.blk.iptr.toNat = s.blk.iptr.toNat + 3 ∧ t.blk.optr.toNat = s.blk.optr.toNat + 4 ∧
      (∀ k : Fin 4, t.obufByte (s.blk.optr.toNat + k.val) =
        (exp3to4 (s.ibufByte s.blk.iptr.toNat)
          (if s.blk.iptr.toNat + 1 < s.blk.len.toNat then s.ibufByte (s.blk.iptr.toNat + 1) else 0x00#8)
          (if s.blk.iptr.toNat + 2 < s.blk.len.toNat then s.ibufByte (s.blk.iptr.toNat + 2) else 0x00#8)).get k) ∧
      (∀ x, x < s.blk.optr.toNat ∨ s.blk.optr.toNat + 4 ≤ x → Memory.read? t.blk.obuf x = Memory.read? s.blk.obuf x)

/-- Rule R122: ENC_FINISH. -/
def Obligations.EncFinishPadsAndTerminates : Prop :=
  ∀ s : State, s.Inv → s.blk.running → s.blk.mode = .enc → s.blk.len.toNat ≤ s.blk.iptr.toNat → nextAgent s = some .core →
    ∃ t, step s = .next t ∧
      t = { spendTurn s with blk := { s.blk with obuf := t.blk.obuf, busy := false, done := true } } ∧
      (1 ≤ padCount s.blk.len.toNat → t.obufByte (s.blk.olen.toNat - 1) = pad) ∧
      (padCount s.blk.len.toNat = 2 → t.obufByte (s.blk.olen.toNat - 2) = pad) ∧
      t.obufByte s.blk.olen.toNat = s.cfg.term ∧
      (∀ x, x + padCount s.blk.len.toNat < s.blk.olen.toNat ∨ s.blk.olen.toNat < x →
        Memory.read? t.blk.obuf x = Memory.read? s.blk.obuf x)

/-- Rule R137: DEC_GROUP, with all four characters good, and with a first bad one at position `k`. -/
def Obligations.DecGroupDecodesOrFails : Prop :=
  ∀ s : State, s.Inv → s.blk.running → s.blk.mode = .dec → s.blk.iptr.toNat < s.blk.len.toNat → nextAgent s = some .core →
    ∃ t, step s = .next t ∧
      ((∀ k < 4, ¬ badIndex s.ibufByte s.blk.len.toNat (s.blk.iptr.toNat + k)) →
        t = { spendTurn s with blk := { s.blk with obuf := t.blk.obuf, iptr := t.blk.iptr, optr := t.blk.optr } } ∧
        t.blk.iptr.toNat = s.blk.iptr.toNat + 4 ∧
        t.blk.optr.toNat = s.blk.optr.toNat + min 3 (s.blk.olen.toNat - s.blk.optr.toNat) ∧
        (∀ j : Fin 3, s.blk.optr.toNat + j.val < s.blk.olen.toNat →
          t.obufByte (s.blk.optr.toNat + j.val) =
            oct (join4 (textSextet s.ibufByte s.blk.iptr.toNat) (textSextet s.ibufByte (s.blk.iptr.toNat + 1))
              (textSextet s.ibufByte (s.blk.iptr.toNat + 2)) (textSextet s.ibufByte (s.blk.iptr.toNat + 3))) j) ∧
        (∀ x, x < s.blk.optr.toNat ∨ t.blk.optr.toNat ≤ x → Memory.read? t.blk.obuf x = Memory.read? s.blk.obuf x)) ∧
      (∀ k < 4, (∀ j < k, ¬ badIndex s.ibufByte s.blk.len.toNat (s.blk.iptr.toNat + j)) →
        badIndex s.ibufByte s.blk.len.toNat (s.blk.iptr.toNat + k) →
        t = { spendTurn s with blk := { s.blk with
          err := true, ecode := (if s.ibufByte (s.blk.iptr.toNat + k) = pad then 5#3 else 4#3),
          erridx := BitVec.ofNat 16 (s.blk.iptr.toNat + k), olen := 0#16, done := true, busy := false } })

/-- Rule R138: DEC_FINISH changes BUSY and DONE and nothing else. -/
def Obligations.DecFinishCompletes : Prop :=
  ∀ s : State, s.blk.running → s.blk.mode = .dec → s.blk.len.toNat ≤ s.blk.iptr.toNat → nextAgent s = some .core →
    step s = .next { spendTurn s with blk := { s.blk with busy := false, done := true } }

/-- Rule R166: the error completion, register by register; every other component keeps its value. -/
def Obligations.ErrorCompletionRegisters : Prop :=
  ∀ (b : Block) (i : Half),
    b.raise .cmd = { b with err := true, ecode := 1#3, olen := 0#16, done := true, busy := false } ∧
    b.raise .len = { b with err := true, ecode := 2#3, olen := 0#16, done := true, busy := false } ∧
    b.raise .fmt = { b with err := true, ecode := 3#3, olen := 0#16, done := true, busy := false } ∧
    b.raise (.char i) = { b with err := true, ecode := 4#3, erridx := i, olen := 0#16, done := true, busy := false } ∧
    b.raise (.pad i) = { b with err := true, ecode := 5#3, erridx := i, olen := 0#16, done := true, busy := false }

/-! ### Host transactions -/

/-- Rule R81: a write to CSR 1 to 7 changes nothing, even while busy; a write to CSR 0 sets BSYWR while busy and is otherwise the issue. -/
def Obligations.HostWritesCsr : Prop :=
  ∀ (s : State) (n : BitVec 3) (w : Word) (rest : List HostLine), s.hostActs (.wcsr n w) rest →
    (n ≠ 0#3 → step s = .next (s.popped rest)) ∧
    (n = 0#3 → s.blk.busy = true → step s = .next { s.popped rest with blk := { s.blk with bsywr := true } }) ∧
    (n = 0#3 → s.blk.busy = false → ∀ i, decode w = .ok i → step s = exec i (s.popped rest)) ∧
    (n = 0#3 → s.blk.busy = false → (∀ i, decode w ≠ .ok i) → ∃ t, step s = .next t ∧ t.blk.failedAtIssue 1#3)

/-- Rule R82: a read of CSR `n` returns the word of the layout, at any time, and changes no state of the block. -/
def Obligations.HostReadsCsr : Prop :=
  ∀ (s : State) (n : BitVec 3) (rest : List HostLine), s.cfg.wf → s.hostActs (.rcsr n) rest →
    ∃ v : Word, step s = .next { s.popped rest with replies := .csr n v :: s.replies } ∧
      (n = 0#3 → v.extractLsb' 17 15 = 0#15 ∧ v.getLsbD 16 = decide (s.blk.mode = .dec) ∧ v.extractLsb' 0 16 = s.blk.len) ∧
      (n = 1#3 → v.extractLsb' 8 24 = 0#24 ∧ v.getLsbD 7 = s.blk.bsywr ∧ v.extractLsb' 4 3 = s.blk.ecode ∧ v.getLsbD 3 = s.blk.tblrdy ∧
        v.getLsbD 2 = s.blk.err ∧ v.getLsbD 1 = s.blk.done ∧ v.getLsbD 0 = s.blk.busy) ∧
      (n = 2#3 → v.toNat = s.blk.olen.toNat) ∧
      (n = 3#3 → v.toNat = s.blk.erridx.toNat) ∧
      (n = 4#3 → v.toNat = s.cfg.decSize * 2 ^ 16 + s.cfg.encSize) ∧
      (5#3 ≤ n → v = 0x00000000#32)

/-- Rule R27: the values STATUS reads as in the phases of a command. -/
def Obligations.StatusWordValues : Prop :=
  readCsr 1#3 State.reset = 0x00000001#32 ∧
  ∀ s : State, s.blk.tblrdy = true → s.blk.bsywr = false →
    (s.blk.busy = false → s.blk.done = false → s.blk.err = false → s.blk.ecode = 0#3 → readCsr 1#3 s = 0x00000008#32) ∧
    (s.blk.busy = true → s.blk.done = false → s.blk.err = false → s.blk.ecode = 0#3 → readCsr 1#3 s = 0x00000009#32) ∧
    (s.blk.busy = false → s.blk.done = true → s.blk.err = false → s.blk.ecode = 0#3 → readCsr 1#3 s = 0x0000000A#32) ∧
    (s.blk.busy = false → s.blk.done = true → s.blk.err = true →
      (readCsr 1#3 s).toNat = 0x0E ||| (s.blk.ecode.toNat <<< 4)) ∧
    readCsr 1#3 { s with blk := { s.blk with bsywr := true } } = readCsr 1#3 s + 0x80#32

/-- Rule R83: HWIB. -/
def Obligations.HostWritesInputBuffer : Prop :=
  ∀ (s : State) (i : Half) (b : Byte) (rest : List HostLine), s.hostActs (.wib i b) rest →
    (s.blk.busy = true → step s = .next { s.popped rest with blk := { s.blk with bsywr := true } }) ∧
    (s.blk.busy = false → i.toNat < s.cfg.ibufSize →
      ∃ t, step s = .next t ∧ t = { s.popped rest with blk := { s.blk with ibuf := t.blk.ibuf } } ∧ t.ibufByte i.toNat = b ∧
        ∀ x, x ≠ i.toNat → Memory.read? t.blk.ibuf x = Memory.read? s.blk.ibuf x) ∧
    (s.blk.busy = false → s.cfg.ibufSize ≤ i.toNat → step s = .next (s.popped rest))

/-- Rule R84: HROB returns the byte, or 0x00 beyond the buffer, at any time, and changes no state of the block. -/
def Obligations.HostReadsOutputBuffer : Prop :=
  ∀ (s : State) (i : Half) (rest : List HostLine), s.hostActs (.rob i) rest →
    (i.toNat < s.cfg.obufSize → step s = .next { s.popped rest with replies := .ob i (s.obufByte i.toNat) :: s.replies }) ∧
    (s.cfg.obufSize ≤ i.toNat → step s = .next { s.popped rest with replies := .ob i 0x00#8 :: s.replies })

/-- Rule R71: the pseudo-operations and their expansions; WAIT reads CSR 1 and stands again while BUSY was 1 (log entry 12). -/
def Obligations.PseudoOperationsExpand : Prop :=
  (∀ n : Half, expandOp (.enc n) = [.wcsr 0#3 (n.setWidth 32)]) ∧
  (∀ n : Half, expandOp (.dec n) = [.wcsr 0#3 (0x00010000#32 ||| n.setWidth 32)]) ∧
  (∀ bs : List Byte, bs.length ≤ 65536 → ∀ j, (expandOp (.lds bs))[j]? = (bs[j]?).map (fun b => HostLine.wib (BitVec.ofNat 16 j) b) ∧
    (expandOp (.ldb bs))[j]? = (bs[j]?).map (fun b => HostLine.wib (BitVec.ofNat 16 j) b)) ∧
  (∀ m j : Nat, m ≤ 65536 → j < m → (expandOp (.rds m))[j]? = some (.rob (BitVec.ofNat 16 j)) ∧ (expandOp (.rds m)).length = m) ∧
  (∀ (s : State) (rest : List HostLine), s.hostActs .wait rest →
    step s = .next { s.popped rest with
      pending := (if s.blk.busy then .wait :: rest else rest), replies := .csr 1#3 (readCsr 1#3 s) :: s.replies })

/-- 40_host_transactions.md, ports, the order of the actions of one clock edge: RESET overrides every request; without it the CSR access comes first (a
read gives the word of the state before the edge), then the IBUF write on the state that leaves (dropped if the core is then busy), then the core's
action, if the core moves on this edge, on the state those leave (log entries 11 and 16; `epoch` is the counter of log entry 3). -/
def Obligations.SameEdgeOrder : Prop :=
  (∀ (e : EdgeIn) (m : Bool) (s : State), e.rst = true →
    clockEdge e m s = .next { s with blk := State.reset.blk, epoch := s.epoch + 1 }) ∧
  (∀ (e : EdgeIn) (m : Bool) (s t : State), e.rst = false →
    (if e.csrReq then
      (if e.csrWe then hwcsr e.csrAddr e.csrWdata s = .next t
      else t = { s with replies := .csr e.csrAddr (readCsr e.csrAddr s) :: s.replies })
    else t = s) →
    ∃ u, clockEdge e m s = (if m then coreAct u else .next u) ∧
      (e.ibWe = false → u = t) ∧
      (e.ibWe = true → t.blk.busy = true → u = { t with blk := { t.blk with bsywr := true } }) ∧
      (e.ibWe = true → t.blk.busy = false → t.cfg.ibufSize ≤ e.ibAddr.toNat → u = t) ∧
      (e.ibWe = true → t.blk.busy = false → e.ibAddr.toNat < t.cfg.ibufSize →
        u = { t with blk := { t.blk with ibuf := u.blk.ibuf } } ∧ u.ibufByte e.ibAddr.toNat = e.ibWdata ∧
        ∀ x, x ≠ e.ibAddr.toNat → Memory.read? u.blk.ibuf x = Memory.read? t.blk.ibuf x)) ∧
  (∀ (e : EdgeIn) (m : Bool) (s t : State) (i : Instr), e.rst = false → e.csrReq = true → e.csrWe = true → e.csrAddr = 0#3 → e.ibWe = true →
    decode e.csrWdata = .ok i → exec i s = .next t → t.blk.busy = true →
    clockEdge e m s = (if m then coreAct { t with blk := { t.blk with bsywr := true } }
      else .next { t with blk := { t.blk with bsywr := true } })) ∧
  (∀ (e : EdgeIn) (m : Bool) (s : State), e.rst = false → e.csrReq = true → e.csrWe = false → e.csrAddr = 1#3 → e.ibWe = true →
    s.blk.busy = true →
    clockEdge e m s =
      (if m then coreAct { s with blk := { s.blk with bsywr := true }, replies := .csr 1#3 (readCsr 1#3 s) :: s.replies }
      else .next { s with blk := { s.blk with bsywr := true }, replies := .csr 1#3 (readCsr 1#3 s) :: s.replies }))

/-- Rule R36: the three pins mirror bits 0, 1 and 2 of STATUS. -/
def Obligations.PinsMirrorStatus : Prop :=
  ∀ s : State, busyPin s = (readCsr 1#3 s).getLsbD 0 ∧ donePin s = (readCsr 1#3 s).getLsbD 1 ∧ errPin s = (readCsr 1#3 s).getLsbD 2

/-! ### The whole machine -/

/-- The invariant holds at reset (10_state.md, state invariants). -/
def Obligations.InvariantAtReset : Prop := State.reset.Inv

/-- Every step keeps the invariant, from every state that meets it (10_state.md, state invariants). -/
def Obligations.StepKeepsInvariant : Prop := ∀ s t : State, s.Inv → step s = .next t → t.Inv

/-- From a state that meets the invariant a step always answers a next state: no core access leaves the buffers (20_memory.md, IBUF and OBUF accesses). -/
def Obligations.NoStepFaults : Prop := ∀ s : State, s.Inv → ∃ t, step s = .next t

/-- The parameters never change (00_scope.md: they are fixed at build time; the model's convention of log entry 1). -/
def Obligations.ParametersNeverChange : Prop := ∀ s t : State, step s = .next t → t.cfg = s.cfg

/-- 10_state.md: the core never writes IBUF; the host never writes OBUF but by RESET. -/
def Obligations.EachBufferHasOneWriter : Prop :=
  ∀ s t : State, step s = .next t →
    (nextAgent s = some .core → t.blk.ibuf = s.blk.ibuf) ∧
    (nextAgent s = some .host → t.blk.obuf = s.blk.obuf ∨ ∃ rest, s.hostActs .rst rest)

/-- 20_memory.md: while the core is busy no host transaction but RESET changes anything of the block but BSYWR. -/
def Obligations.RunningCommandIgnoresHost : Prop :=
  ∀ s t : State, s.blk.busy = true → nextAgent s = some .host → (∀ rest, ¬ s.hostActs .rst rest) → step s = .next t →
    t.blk = { s.blk with bsywr := t.blk.bsywr } ∧ (s.blk.bsywr = true → t.blk.bsywr = true)

/-- With no core step enabled and no line left for the host, nothing changes (the model's convention of log entry 6). -/
def Obligations.QuiescentMachineStays : Prop :=
  ∀ s : State, enabledStep s.blk = none → s.pending = [] → step s = .next s

/-- Where both agents can act, either may go first (20_memory.md; the model's convention of log entry 5): the head of `turns` decides. -/
def Obligations.EitherAgentMayGoFirst : Prop :=
  ∀ (s : State) (l : HostLine) (rest : List HostLine), s.pending = l :: rest → enabledStep s.blk ≠ none →
    (∀ r, nextAgent { s with turns := .host :: r } = some .host) ∧ (∀ r, nextAgent { s with turns := .core :: r } = some .core) ∧
    nextAgent { s with turns := [] } = some .core

/-! ### The results of the commands -/

/-- 42_encode.md, the result of ENC in closed form: after the issue and `ceil(LEN / 3) + 1` core steps. -/
def Obligations.EncCommandResult : Prop :=
  ∀ (s : State) (len : Half), s.Inv → s.blk.idle → s.pending = [] → len.toNat ≤ s.cfg.encSize →
    ∃ t0 t, exec (.enc len) s = .next t0 ∧ run ((len.toNat + 2) / 3 + 1) t0 = .next t ∧
      t = { s with blk := { s.blk with
        obuf := t.blk.obuf, mode := .enc, len := len, olen := BitVec.ofNat 16 (encLen len.toNat),
        iptr := BitVec.ofNat 16 (3 * ((len.toNat + 2) / 3)), optr := BitVec.ofNat 16 (encLen len.toNat), erridx := 0#16,
        busy := false, done := true, err := false, ecode := 0#3, bsywr := false } } ∧
      (∀ j < encLen len.toNat, t.obufByte j = encText s.ibufByte len.toNat j) ∧
      t.obufByte (encLen len.toNat) = s.cfg.term ∧
      (∀ x, encLen len.toNat < x → Memory.read? t.blk.obuf x = Memory.read? s.blk.obuf x)

/-- 43_decode.md, the result of DEC on success in closed form: after the issue and `LEN div 4 + 1` core steps on a well-formed text. -/
def Obligations.DecCommandResult : Prop :=
  ∀ (s : State) (len : Half), s.Inv → s.blk.idle → s.pending = [] → len.toNat ≤ s.cfg.decSize → wellFormedText s.ibufByte len.toNat →
    ∃ t0 t, exec (.dec len) s = .next t0 ∧ run (len.toNat / 4 + 1) t0 = .next t ∧
      t = { s with blk := { s.blk with
        obuf := t.blk.obuf, mode := .dec, len := len, olen := BitVec.ofNat 16 (decLen s.ibufByte len.toNat),
        iptr := len, optr := BitVec.ofNat 16 (decLen s.ibufByte len.toNat), erridx := 0#16,
        busy := false, done := true, err := false, ecode := 0#3, bsywr := false } } ∧
      (∀ j < decLen s.ibufByte len.toNat, t.obufByte j = decByte s.ibufByte j) ∧
      (∀ x, decLen s.ibufByte len.toNat ≤ x → Memory.read? t.blk.obuf x = Memory.read? s.blk.obuf x)

/-- 43_decode.md, the result of DEC on failure during execution in closed form: `e` is the lowest bad index. -/
def Obligations.DecCommandFailure : Prop :=
  ∀ (s : State) (len : Half) (e : Nat), s.Inv → s.blk.idle → s.pending = [] → len.toNat ≤ s.cfg.decSize → len.toNat % 4 = 0 →
    e < len.toNat → badIndex s.ibufByte len.toNat e → (∀ i < e, ¬ badIndex s.ibufByte len.toNat i) →
    ∃ t0 t, exec (.dec len) s = .next t0 ∧ run (e / 4 + 1) t0 = .next t ∧
      t = { s with blk := { s.blk with
        obuf := t.blk.obuf, mode := .dec, len := len, olen := 0#16, iptr := BitVec.ofNat 16 (4 * (e / 4)),
        optr := BitVec.ofNat 16 (3 * (e / 4)), erridx := BitVec.ofNat 16 e, busy := false, done := true, err := true,
        ecode := (if s.ibufByte e = pad then 5#3 else 4#3), bsywr := false } } ∧
      (∀ j < 3 * (e / 4), t.obufByte j = decByte s.ibufByte j) ∧
      (∀ x, 3 * (e / 4) ≤ x → Memory.read? t.blk.obuf x = Memory.read? s.blk.obuf x)

/-- 30_encoding.md and 43_decode.md: a text whose length is a multiple of 4 is well-formed exactly when no index is bad. -/
def Obligations.WellFormedIffNoBadIndex : Prop :=
  ∀ (t : Text) (n : Nat), n % 4 = 0 → (wellFormedText t n ↔ ∀ i < n, ¬ badIndex t n i)

/-- 42_encode.md, ENC laws: the text is well-formed, its pads are exactly at its end, and the unused bits before a pad are 0. -/
def Obligations.EncTextLaws : Prop :=
  ∀ (t : Text) (n : Nat),
    wellFormedText (encText t n) (encLen n) ∧
    (∀ j < encLen n, encText t n j = pad ↔ encLen n - padCount n ≤ j) ∧
    (n % 3 = 1 → (textSextet (encText t n) (encLen n - 3)).toNat % 16 = 0) ∧
    (n % 3 = 2 → (textSextet (encText t n) (encLen n - 2)).toNat % 4 = 0)

/-- 43_decode.md, round trip, on texts: decoding the text of `n` bytes gives back their number and each of them. -/
def Obligations.EncodedTextDecodesToInput : Prop :=
  ∀ (t : Text) (n : Nat), decLen (encText t n) (encLen n) = n ∧ ∀ i < n, decByte (encText t n) i = t i

/-- 43_decode.md, round trip, on the machine: a DEC of a text that ENC made of `len` bytes succeeds and leaves exactly those bytes in OBUF. -/
def Obligations.RoundTripOnMachine : Prop :=
  ∀ (s : State) (t : Text) (len : Half), s.Inv → s.blk.idle → s.pending = [] → len.toNat ≤ s.cfg.encSize →
    (∀ j < encLen len.toNat, s.ibufByte j = encText t len.toNat j) →
    ∃ t0 u, exec (.dec (BitVec.ofNat 16 (encLen len.toNat))) s = .next t0 ∧ run (encLen len.toNat / 4 + 1) t0 = .next u ∧
      u.blk.busy = false ∧ u.blk.done = true ∧ u.blk.err = false ∧ u.blk.olen = len ∧ ∀ i < len.toNat, u.obufByte i = t i

/-- 43_decode.md: non-canonical texts are accepted. A text that differs from a well-formed one in unused bits alone is well-formed and decodes to the same
bytes; a DEC of it completes without error with those bytes; and for one group, with two pads and with one, the lengths in numbers. -/
def Obligations.UnusedBitsAreIgnored : Prop :=
  (∀ (t u : Text) (n : Nat), wellFormedText t n → differsInUnusedBits t u n →
    wellFormedText u n ∧ decLen u n = decLen t n ∧ ∀ i < decLen t n, decByte u i = decByte t i) ∧
  (∀ (s : State) (t : Text) (len : Half), s.Inv → s.blk.idle → s.pending = [] → len.toNat ≤ s.cfg.decSize →
    wellFormedText t len.toNat → differsInUnusedBits t s.ibufByte len.toNat →
    ∃ t0 v, exec (.dec len) s = .next t0 ∧ run (len.toNat / 4 + 1) t0 = .next v ∧ v.blk.busy = false ∧ v.blk.done = true ∧ v.blk.err = false ∧
      v.blk.olen.toNat = decLen t len.toNat ∧ ∀ i < decLen t len.toNat, v.obufByte i = decByte t i) ∧
  (∀ t u : Text, t 0 = u 0 → t 2 = pad → t 3 = pad → u 2 = pad → u 3 = pad →
    (textSextet t 1).extractLsb' 4 2 = (textSextet u 1).extractLsb' 4 2 →
    decLen t 4 = 1 ∧ decLen u 4 = 1 ∧ decByte t 0 = decByte u 0) ∧
  (∀ t u : Text, t 0 = u 0 → t 1 = u 1 → t 2 ≠ pad → t 3 = pad → u 2 ≠ pad → u 3 = pad →
    (textSextet t 2).extractLsb' 2 4 = (textSextet u 2).extractLsb' 2 4 →
    decLen t 4 = 2 ∧ decLen u 4 = 2 ∧ decByte t 0 = decByte u 0 ∧ decByte t 1 = decByte u 1)

/-- 42_encode.md: a running ENC does not depend on the interleaving. Every step, of the core or of the host, but a RESET keeps its progress or completes
it with the result. That it comes to completion is `RunningCommandReachesItsResult`. -/
def Obligations.EncStepKeepsProgressOrCompletes : Prop :=
  ∀ (s s' : State) (t : Text) (n : Nat), s.Inv → s.EncProgress t n → (∀ rest, ¬ s.hostActs .rst rest) → step s = .next s' →
    s'.EncProgress t n ∨ s'.EncDone t n

/-- 43_decode.md: a running DEC does not depend on the interleaving. Every step but a RESET keeps its progress or ends it with the result or the
failure. That it comes to its end is `RunningCommandReachesItsResult`. -/
def Obligations.DecStepKeepsProgressOrEnds : Prop :=
  ∀ (s s' : State) (t : Text) (n : Nat), s.Inv → s.DecProgress t n → (∀ rest, ¬ s.hostActs .rst rest) → step s = .next s' →
    s'.DecProgress t n ∨ s'.DecDone t n ∨ s'.DecFailed t n

/-- The issue of an accepted ENC or DEC starts its progress. -/
def Obligations.IssueStartsProgress : Prop :=
  ∀ (s : State) (len : Half), s.cfg.wf → s.blk.idle →
    (len.toNat ≤ s.cfg.encSize → ∃ t, exec (.enc len) s = .next t ∧ t.EncProgress s.ibufByte len.toNat) ∧
    (len.toNat ≤ s.cfg.decSize → len.toNat % 4 = 0 → ∃ t, exec (.dec len) s = .next t ∧ t.DecProgress s.ibufByte len.toNat)

/-- 40_host_transactions.md, control flow, and 70_reset_and_hazards.md, timing: every running command completes, after at most 16384 core steps. With a host
that has nothing to do there are no other steps; with any host whose lines hold no RESET there is at most one host step for each turn in the list (the
core's fairness as log entry 5 has it). -/
def Obligations.EveryRunningCommandCompletes : Prop :=
  (∀ s : State, s.Inv → s.blk.running → s.pending = [] →
    ∃ k ≤ 16384, ∃ t, run k s = .next t ∧ t.blk.busy = false ∧ t.blk.done = true) ∧
  (∀ s : State, s.Inv → s.blk.running → .rst ∉ s.pending →
    ∃ k ≤ 16384 + s.turns.length, ∃ t, run k s = .next t ∧ t.blk.busy = false ∧ t.blk.done = true)

/-- 42_encode.md, 43_decode.md and 70_reset_and_hazards.md, timing: under every host whose lines hold no RESET, and every order of turns, an ENC in progress
reaches its text and sentinel, and a DEC in progress reaches its bytes or its failure at the lowest bad index. -/
def Obligations.RunningCommandReachesItsResult : Prop :=
  ∀ (s : State) (t : Text) (n : Nat), s.Inv → .rst ∉ s.pending →
    (s.EncProgress t n → ∃ k ≤ 16384 + s.turns.length, ∃ u, run k s = .next u ∧ u.EncDone t n) ∧
    (s.DecProgress t n → ∃ k ≤ 16384 + s.turns.length, ∃ u, run k s = .next u ∧ (u.DecDone t n ∨ u.DecFailed t n))
end

