-- ==== Sys2Proof/Laws/Datapath.lean ====
section
/-! SUPPORT. What the datapath functions and the table building give, said once: the length laws as bounds and the table after the 64 writes. -/

namespace Sys2Proof.Machine

/-! ### Lengths -/

theorem padTab_get (r : Fin 3) : r.val + (padTab.get r).toNat = 3 * ((r.val + 2) / 3) := by revert r; decide

/-- The pads complete the last group (rule R110). -/
theorem padCount_add (n : Nat) : n + padCount n = 3 * ((n + 2) / 3) := by
  have h : n % 3 + padCount n = 3 * ((n % 3 + 2) / 3) := padTab_get ⟨n % 3, Nat.mod_lt n (by decide)⟩
  omega

theorem padCount_le (n : Nat) : padCount n ≤ 2 := by have := padCount_add n; omega

theorem padCount_le_encLen (n : Nat) : padCount n ≤ encLen n := by
  have h1 := padCount_add n
  have h2 := padCount_le n
  unfold encLen
  omega

theorem decPad_le (t : Nat → Byte) (n : Nat) : decPad t n ≤ 2 := by unfold decPad; split_ifs <;> omega

theorem decLen_le (t : Nat → Byte) (n : Nat) : decLen t n ≤ 3 * (n / 4) := by unfold decLen; omega

theorem decLen_ge (t : Nat → Byte) (n : Nat) : 3 * (n / 4) ≤ decLen t n + 2 := by
  have := decPad_le t n; unfold decLen; omega

theorem decSize_le_of_wf {c : Config} (h : c.wf) : c.decSize ≤ 65532 := by
  obtain ⟨h1, h2⟩ := h; unfold Config.decSize; omega

theorem encLen_le_decSize {c : Config} {n : Nat} (h : n ≤ c.encSize) : encLen n ≤ c.decSize := by
  unfold encLen Config.decSize; omega

theorem decLen_le_decSize {c : Config} {t : Nat → Byte} {n : Nat} (h : n ≤ c.decSize) : decLen t n ≤ c.decSize := by
  have := decLen_le t n; omega

/-! ### The inverse table -/

theorem ch2sx_setEntry (inv : Vector InvEntry 256) (i : Nat) (c : Byte) :
    ch2sx (setEntry inv i) c = if sx2ch (BitVec.ofNat 6 i) = c then { v := true, val := BitVec.ofNat 6 i } else ch2sx inv c := by
  simp only [ch2sx, setEntry, Vector.get_eq_getElem, Vector.getElem_set, BitVec.toNat_inj]

/-- The last of a list of indices whose character is `c`. -/
def lastHit (c : Byte) (l : List Nat) : Option Nat := l.reverse.find? (fun i => sx2ch (BitVec.ofNat 6 i) == c)

theorem ch2sx_foldl (l : List Nat) (inv : Vector InvEntry 256) (c : Byte) :
    ch2sx (l.foldl setEntry inv) c =
      match lastHit c l with | some i => { v := true, val := BitVec.ofNat 6 i } | none => ch2sx inv c := by
  induction l using List.reverseRecOn with
  | nil => rfl
  | append_singleton l i ih =>
    rw [List.foldl_append, List.foldl_cons, List.foldl_nil, ch2sx_setEntry, ih]
    simp only [lastHit, List.reverse_append, List.reverse_cons, List.reverse_nil, List.nil_append, List.singleton_append, List.find?_cons]
    by_cases h : sx2ch (BitVec.ofNat 6 i) = c
    · simp [h]
    · have h' : (sx2ch (BitVec.ofNat 6 i) == c) = false := by simpa using h
      simp [h, h']

theorem lastHit_range (c : Byte) :
    invOf c = match lastHit c (List.range 64) with | some i => { v := true, val := BitVec.ofNat 6 i } | none => { v := false, val := 0#6 } := by
  revert c; decide +kernel

/-- The table after INIT's writes: the entry of an alphabet character is its index, every other entry is what it was (rule R155). -/
theorem ch2sx_buildInv (inv : Vector InvEntry 256) (c : Byte) :
    ch2sx (buildInv inv) c = if (invOf c).v then invOf c else ch2sx inv c := by
  rw [buildInv, ch2sx_foldl, lastHit_range]
  cases lastHit c (List.range 64) <;> simp

end Sys2Proof.Machine
end

