-- ==== Sys2Proof/Laws/Memory.lean ====
section
/-! SUPPORT. The laws of buffers: a read after a write, the canonical form, the bounds. -/

namespace Sys2Proof.Machine

@[simp] theorem Memory.read?_nil (a : Nat) : Memory.read? [] a = none := rfl

theorem Memory.read?_write (m : Memory) (a x : Nat) (b : Byte) :
    Memory.read? (Memory.write m a b) x = if x = a then some b else Memory.read? m x := by
  induction m with
  | nil => rfl
  | cons c m ih =>
    obtain ⟨k, v⟩ := c
    simp only [Memory.write]
    split_ifs with h1 h2 h3 <;> grind [Memory.read?]

@[simp] theorem Memory.read?_write_same (m : Memory) (a : Nat) (b : Byte) :
    Memory.read? (Memory.write m a b) a = some b := by simp [Memory.read?_write]

theorem Memory.read?_write_other (m : Memory) {a x : Nat} (b : Byte) (h : x ≠ a) :
    Memory.read? (Memory.write m a b) x = Memory.read? m x := by simp [Memory.read?_write, h]

theorem Memory.mem_write {m : Memory} {a : Nat} {b : Byte} {c : Host.Cell} (h : c ∈ Memory.write m a b) :
    c = (a, b) ∨ c ∈ m := by
  induction m with
  | nil => simpa [Memory.write] using h
  | cons d m ih =>
    obtain ⟨k, v⟩ := d
    simp only [Memory.write] at h
    split_ifs at h <;> grind

theorem Memory.write_wf {m : Memory} (a : Nat) (b : Byte) (h : m.wf) : (Memory.write m a b).wf := by
  induction m with
  | nil => simp [Memory.write, Memory.wf]
  | cons d m ih =>
    obtain ⟨k, v⟩ := d
    obtain ⟨hk, hm⟩ := List.pairwise_cons.mp h
    simp only [Memory.write]
    split_ifs with h1 h2
    · refine List.pairwise_cons.mpr ⟨fun c hc => ?_, h⟩
      rcases List.mem_cons.mp hc with rfl | hc
      · exact h1
      · exact Nat.lt_trans h1 (hk c hc)
    · subst h2
      exact List.pairwise_cons.mpr ⟨hk, hm⟩
    · refine List.pairwise_cons.mpr ⟨fun c hc => ?_, ih hm⟩
      rcases Memory.mem_write hc with rfl | hc
      · simp only; omega
      · exact hk c hc

theorem Memory.write_below {m : Memory} {a n : Nat} (b : Byte) (h : m.below n) (ha : a < n) :
    (Memory.write m a b).below n := fun c hc => by
  rcases Memory.mem_write hc with rfl | hc
  · exact ha
  · exact h c hc

theorem Memory.read?_writeList (m : Memory) (a x : Nat) (bs : List Byte) :
    Memory.read? (Memory.writeList m a bs) x = if a ≤ x ∧ x < a + bs.length then bs[x - a]? else Memory.read? m x := by
  induction bs generalizing m a with
  | nil =>
    have : ¬ (a ≤ x ∧ x < a + ([] : List Byte).length) := by simp
    rw [if_neg this]; rfl
  | cons b bs ih =>
    rw [Memory.writeList, ih, Memory.read?_write]
    rcases Nat.lt_trichotomy x a with h | rfl | h
    · rw [if_neg (by omega), if_neg (by omega), if_neg (by simp; omega)]
    · simp
    · obtain ⟨d, rfl⟩ : ∃ d, x = a + 1 + d := ⟨x - (a + 1), by omega⟩
      have e1 : a + 1 + d - (a + 1) = d := by omega
      have e2 : a + 1 + d - a = d + 1 := by omega
      rw [e1, e2, List.getElem?_cons_succ]
      by_cases hd : d < bs.length
      · rw [if_pos (by omega), if_pos (by simp; omega)]
      · rw [if_neg (by omega), if_neg (by omega), if_neg (by simp; omega)]

theorem Memory.read?_writeList_other (m : Memory) {a x : Nat} (bs : List Byte) (h : x < a ∨ a + bs.length ≤ x) :
    Memory.read? (Memory.writeList m a bs) x = Memory.read? m x := by
  rw [Memory.read?_writeList, if_neg (by omega)]

theorem Memory.writeList_wf {m : Memory} (a : Nat) (bs : List Byte) (h : m.wf) : (Memory.writeList m a bs).wf := by
  induction bs generalizing m a with
  | nil => exact h
  | cons b bs ih => exact ih _ (Memory.write_wf a b h)

theorem Memory.writeList_below {m : Memory} {n : Nat} (a : Nat) (bs : List Byte) (h : m.below n)
    (ha : bs = [] ∨ a + bs.length ≤ n) : (Memory.writeList m a bs).below n := by
  induction bs generalizing m a with
  | nil => exact h
  | cons b bs ih =>
    have hl : a + (bs.length + 1) ≤ n := by simpa using ha
    refine ih _ (Memory.write_below b h (by omega)) ?_
    rcases bs with _ | ⟨c, cs⟩
    · exact .inl rfl
    · exact .inr (by omega)

/-- The reset buffers are in canonical form: nothing is listed. -/
theorem Block.reset_buffers_wf : Block.reset.ibuf.wf ∧ Block.reset.obuf.wf := by
  simp [Block.reset, Memory.wf]

end Sys2Proof.Machine
end

