-- ==== Sys2Proof/Laws/PerInstr.lean ====
section
/-! SUPPORT. Statements about every instruction as syntax, one lemma per constructor. Family `EncodedWord`: the fields of the word an instruction
encodes to (30_encoding.md, format C). -/

namespace Sys2Proof.Laws.EncodedWord

/-- The instruction's own bit 16. -/
def modeBit : Instr → Bool
  | .enc _ => false
  | .dec _ => true

/-- The instruction's own LEN field. -/
def len : Instr → Half
  | .enc n => n
  | .dec n => n

/-- The encoded word is the instruction's MODE bit at 16 and its LEN at 0, and nothing above: every reserved bit is 0. -/
def Statement (i : Instr) : Prop :=
  (encode i).toNat = (if modeBit i then 0x10000 else 0) + (len i).toNat

theorem enc (n : Half) : Statement (.enc n) := by
  have h := n.isLt
  simp only [Statement, encode, modeBit, len, BitVec.toNat_append]
  rw [← Nat.shiftLeft_add_eq_or_of_lt h]
  simp

theorem dec (n : Half) : Statement (.dec n) := by
  have h := n.isLt
  simp only [Statement, encode, modeBit, len, BitVec.toNat_append, if_true]
  rw [← Nat.shiftLeft_add_eq_or_of_lt h]
  simp

end Sys2Proof.Laws.EncodedWord
end

