-- ==== Sys2Proof/Laws/State.lean ====
section
/-! SUPPORT. One lemma per field and update, each true by unfolding, so that no proof unfolds a record update. -/

namespace Sys2Proof.Machine

@[simp] theorem State.setBlk_cfg (s : State) (b : Block) : (s.setBlk b).cfg = s.cfg := rfl
@[simp] theorem State.setBlk_epoch (s : State) (b : Block) : (s.setBlk b).epoch = s.epoch := rfl
@[simp] theorem State.setBlk_pending (s : State) (b : Block) : (s.setBlk b).pending = s.pending := rfl
@[simp] theorem State.setBlk_turns (s : State) (b : Block) : (s.setBlk b).turns = s.turns := rfl
@[simp] theorem State.setBlk_replies (s : State) (b : Block) : (s.setBlk b).replies = s.replies := rfl
@[simp] theorem State.setBlk_blk (s : State) (b : Block) : (s.setBlk b).blk = b := rfl

@[simp] theorem Block.latch_ibuf (b : Block) (m : Mode) (n : Half) : (b.latch m n).ibuf = b.ibuf := rfl
@[simp] theorem Block.latch_obuf (b : Block) (m : Mode) (n : Half) : (b.latch m n).obuf = b.obuf := rfl
@[simp] theorem Block.latch_mode (b : Block) (m : Mode) (n : Half) : (b.latch m n).mode = m := rfl
@[simp] theorem Block.latch_len (b : Block) (m : Mode) (n : Half) : (b.latch m n).len = n := rfl
@[simp] theorem Block.latch_olen (b : Block) (m : Mode) (n : Half) : (b.latch m n).olen = 0#16 := rfl
@[simp] theorem Block.latch_iptr (b : Block) (m : Mode) (n : Half) : (b.latch m n).iptr = 0#16 := rfl
@[simp] theorem Block.latch_optr (b : Block) (m : Mode) (n : Half) : (b.latch m n).optr = 0#16 := rfl
@[simp] theorem Block.latch_erridx (b : Block) (m : Mode) (n : Half) : (b.latch m n).erridx = 0#16 := rfl
@[simp] theorem Block.latch_busy (b : Block) (m : Mode) (n : Half) : (b.latch m n).busy = b.busy := rfl
@[simp] theorem Block.latch_done (b : Block) (m : Mode) (n : Half) : (b.latch m n).done = false := rfl
@[simp] theorem Block.latch_err (b : Block) (m : Mode) (n : Half) : (b.latch m n).err = false := rfl
@[simp] theorem Block.latch_ecode (b : Block) (m : Mode) (n : Half) : (b.latch m n).ecode = 0#3 := rfl
@[simp] theorem Block.latch_tblrdy (b : Block) (m : Mode) (n : Half) : (b.latch m n).tblrdy = b.tblrdy := rfl
@[simp] theorem Block.latch_bsywr (b : Block) (m : Mode) (n : Half) : (b.latch m n).bsywr = false := rfl
@[simp] theorem Block.latch_inv (b : Block) (m : Mode) (n : Half) : (b.latch m n).inv = b.inv := rfl

@[simp] theorem Block.accept_ibuf (b : Block) (n : Nat) : (b.accept n).ibuf = b.ibuf := rfl
@[simp] theorem Block.accept_obuf (b : Block) (n : Nat) : (b.accept n).obuf = b.obuf := rfl
@[simp] theorem Block.accept_mode (b : Block) (n : Nat) : (b.accept n).mode = b.mode := rfl
@[simp] theorem Block.accept_len (b : Block) (n : Nat) : (b.accept n).len = b.len := rfl
@[simp] theorem Block.accept_olen (b : Block) (n : Nat) : (b.accept n).olen = BitVec.ofNat 16 n := rfl
@[simp] theorem Block.accept_iptr (b : Block) (n : Nat) : (b.accept n).iptr = b.iptr := rfl
@[simp] theorem Block.accept_optr (b : Block) (n : Nat) : (b.accept n).optr = b.optr := rfl
@[simp] theorem Block.accept_erridx (b : Block) (n : Nat) : (b.accept n).erridx = b.erridx := rfl
@[simp] theorem Block.accept_busy (b : Block) (n : Nat) : (b.accept n).busy = true := rfl
@[simp] theorem Block.accept_done (b : Block) (n : Nat) : (b.accept n).done = b.done := rfl
@[simp] theorem Block.accept_err (b : Block) (n : Nat) : (b.accept n).err = b.err := rfl
@[simp] theorem Block.accept_ecode (b : Block) (n : Nat) : (b.accept n).ecode = b.ecode := rfl
@[simp] theorem Block.accept_tblrdy (b : Block) (n : Nat) : (b.accept n).tblrdy = b.tblrdy := rfl
@[simp] theorem Block.accept_bsywr (b : Block) (n : Nat) : (b.accept n).bsywr = b.bsywr := rfl
@[simp] theorem Block.accept_inv (b : Block) (n : Nat) : (b.accept n).inv = b.inv := rfl

@[simp] theorem Block.raise_ibuf (b : Block) (e : CmdError) : (b.raise e).ibuf = b.ibuf := rfl
@[simp] theorem Block.raise_obuf (b : Block) (e : CmdError) : (b.raise e).obuf = b.obuf := rfl
@[simp] theorem Block.raise_mode (b : Block) (e : CmdError) : (b.raise e).mode = b.mode := rfl
@[simp] theorem Block.raise_len (b : Block) (e : CmdError) : (b.raise e).len = b.len := rfl
@[simp] theorem Block.raise_olen (b : Block) (e : CmdError) : (b.raise e).olen = 0#16 := rfl
@[simp] theorem Block.raise_iptr (b : Block) (e : CmdError) : (b.raise e).iptr = b.iptr := rfl
@[simp] theorem Block.raise_optr (b : Block) (e : CmdError) : (b.raise e).optr = b.optr := rfl
@[simp] theorem Block.raise_erridx (b : Block) (e : CmdError) : (b.raise e).erridx = e.erridx b.erridx := rfl
@[simp] theorem Block.raise_busy (b : Block) (e : CmdError) : (b.raise e).busy = false := rfl
@[simp] theorem Block.raise_done (b : Block) (e : CmdError) : (b.raise e).done = true := rfl
@[simp] theorem Block.raise_err (b : Block) (e : CmdError) : (b.raise e).err = true := rfl
@[simp] theorem Block.raise_ecode (b : Block) (e : CmdError) : (b.raise e).ecode = e.code := rfl
@[simp] theorem Block.raise_tblrdy (b : Block) (e : CmdError) : (b.raise e).tblrdy = b.tblrdy := rfl
@[simp] theorem Block.raise_bsywr (b : Block) (e : CmdError) : (b.raise e).bsywr = b.bsywr := rfl
@[simp] theorem Block.raise_inv (b : Block) (e : CmdError) : (b.raise e).inv = b.inv := rfl

@[simp] theorem Block.complete_ibuf (b : Block) : (b.complete).ibuf = b.ibuf := rfl
@[simp] theorem Block.complete_obuf (b : Block) : (b.complete).obuf = b.obuf := rfl
@[simp] theorem Block.complete_mode (b : Block) : (b.complete).mode = b.mode := rfl
@[simp] theorem Block.complete_len (b : Block) : (b.complete).len = b.len := rfl
@[simp] theorem Block.complete_olen (b : Block) : (b.complete).olen = b.olen := rfl
@[simp] theorem Block.complete_iptr (b : Block) : (b.complete).iptr = b.iptr := rfl
@[simp] theorem Block.complete_optr (b : Block) : (b.complete).optr = b.optr := rfl
@[simp] theorem Block.complete_erridx (b : Block) : (b.complete).erridx = b.erridx := rfl
@[simp] theorem Block.complete_busy (b : Block) : (b.complete).busy = false := rfl
@[simp] theorem Block.complete_done (b : Block) : (b.complete).done = true := rfl
@[simp] theorem Block.complete_err (b : Block) : (b.complete).err = b.err := rfl
@[simp] theorem Block.complete_ecode (b : Block) : (b.complete).ecode = b.ecode := rfl
@[simp] theorem Block.complete_tblrdy (b : Block) : (b.complete).tblrdy = b.tblrdy := rfl
@[simp] theorem Block.complete_bsywr (b : Block) : (b.complete).bsywr = b.bsywr := rfl
@[simp] theorem Block.complete_inv (b : Block) : (b.complete).inv = b.inv := rfl

@[simp] theorem Block.dropWrite_ibuf (b : Block) : (b.dropWrite).ibuf = b.ibuf := rfl
@[simp] theorem Block.dropWrite_obuf (b : Block) : (b.dropWrite).obuf = b.obuf := rfl
@[simp] theorem Block.dropWrite_mode (b : Block) : (b.dropWrite).mode = b.mode := rfl
@[simp] theorem Block.dropWrite_len (b : Block) : (b.dropWrite).len = b.len := rfl
@[simp] theorem Block.dropWrite_olen (b : Block) : (b.dropWrite).olen = b.olen := rfl
@[simp] theorem Block.dropWrite_iptr (b : Block) : (b.dropWrite).iptr = b.iptr := rfl
@[simp] theorem Block.dropWrite_optr (b : Block) : (b.dropWrite).optr = b.optr := rfl
@[simp] theorem Block.dropWrite_erridx (b : Block) : (b.dropWrite).erridx = b.erridx := rfl
@[simp] theorem Block.dropWrite_busy (b : Block) : (b.dropWrite).busy = b.busy := rfl
@[simp] theorem Block.dropWrite_done (b : Block) : (b.dropWrite).done = b.done := rfl
@[simp] theorem Block.dropWrite_err (b : Block) : (b.dropWrite).err = b.err := rfl
@[simp] theorem Block.dropWrite_ecode (b : Block) : (b.dropWrite).ecode = b.ecode := rfl
@[simp] theorem Block.dropWrite_tblrdy (b : Block) : (b.dropWrite).tblrdy = b.tblrdy := rfl
@[simp] theorem Block.dropWrite_bsywr (b : Block) : (b.dropWrite).bsywr = true := rfl
@[simp] theorem Block.dropWrite_inv (b : Block) : (b.dropWrite).inv = b.inv := rfl

@[simp] theorem Block.init_ibuf (b : Block) : (b.init).ibuf = b.ibuf := rfl
@[simp] theorem Block.init_obuf (b : Block) : (b.init).obuf = b.obuf := rfl
@[simp] theorem Block.init_mode (b : Block) : (b.init).mode = b.mode := rfl
@[simp] theorem Block.init_len (b : Block) : (b.init).len = b.len := rfl
@[simp] theorem Block.init_olen (b : Block) : (b.init).olen = b.olen := rfl
@[simp] theorem Block.init_iptr (b : Block) : (b.init).iptr = b.iptr := rfl
@[simp] theorem Block.init_optr (b : Block) : (b.init).optr = b.optr := rfl
@[simp] theorem Block.init_erridx (b : Block) : (b.init).erridx = b.erridx := rfl
@[simp] theorem Block.init_busy (b : Block) : (b.init).busy = false := rfl
@[simp] theorem Block.init_done (b : Block) : (b.init).done = b.done := rfl
@[simp] theorem Block.init_err (b : Block) : (b.init).err = b.err := rfl
@[simp] theorem Block.init_ecode (b : Block) : (b.init).ecode = b.ecode := rfl
@[simp] theorem Block.init_tblrdy (b : Block) : (b.init).tblrdy = true := rfl
@[simp] theorem Block.init_bsywr (b : Block) : (b.init).bsywr = b.bsywr := rfl
@[simp] theorem Block.init_inv (b : Block) : (b.init).inv = buildInv b.inv := rfl

@[simp] theorem hrcsr_cfg (n : BitVec 3) (s : State) : (hrcsr n s).cfg = s.cfg := rfl
@[simp] theorem hrob_cfg (i : Half) (s : State) : (hrob i s).cfg = s.cfg := rfl
@[simp] theorem hrcsr_blk (n : BitVec 3) (s : State) : (hrcsr n s).blk = s.blk := rfl
@[simp] theorem hrob_blk (i : Half) (s : State) : (hrob i s).blk = s.blk := rfl
@[simp] theorem hrcsr_epoch (n : BitVec 3) (s : State) : (hrcsr n s).epoch = s.epoch := rfl
@[simp] theorem hrob_epoch (i : Half) (s : State) : (hrob i s).epoch = s.epoch := rfl
@[simp] theorem hrcsr_pending (n : BitVec 3) (s : State) : (hrcsr n s).pending = s.pending := rfl
@[simp] theorem hrob_pending (i : Half) (s : State) : (hrob i s).pending = s.pending := rfl

@[simp] theorem hreset_blk (s : State) : (hreset s).blk = Block.reset := rfl
@[simp] theorem hreset_cfg (s : State) : (hreset s).cfg = s.cfg := rfl
@[simp] theorem hreset_epoch (s : State) : (hreset s).epoch = s.epoch + 1 := rfl

@[simp] theorem hwait_blk (s : State) : (hwait s).blk = s.blk := by unfold hwait; split <;> rfl
@[simp] theorem hwait_cfg (s : State) : (hwait s).cfg = s.cfg := by unfold hwait; split <;> rfl
@[simp] theorem hwait_epoch (s : State) : (hwait s).epoch = s.epoch := by unfold hwait; split <;> rfl

@[simp] theorem spendTurn_cfg (s : State) : (spendTurn s).cfg = s.cfg := by unfold spendTurn; split <;> rfl
@[simp] theorem spendTurn_blk (s : State) : (spendTurn s).blk = s.blk := by unfold spendTurn; split <;> rfl
@[simp] theorem spendTurn_epoch (s : State) : (spendTurn s).epoch = s.epoch := by unfold spendTurn; split <;> rfl
@[simp] theorem spendTurn_pending (s : State) : (spendTurn s).pending = s.pending := by unfold spendTurn; split <;> rfl
@[simp] theorem spendTurn_replies (s : State) : (spendTurn s).replies = s.replies := by unfold spendTurn; split <;> rfl

/-- What an IBUF byte reads as depends on the buffer and the epoch alone. -/
theorem State.ibufByte_congr {s t : State} (hb : t.blk.ibuf = s.blk.ibuf) (he : t.epoch = s.epoch) : t.ibufByte = s.ibufByte := by
  funext i; simp [State.ibufByte, hb, he]

/-- What an OBUF byte reads as depends on the buffer and the epoch alone. -/
theorem State.obufByte_congr {s t : State} (hb : t.blk.obuf = s.blk.obuf) (he : t.epoch = s.epoch) : t.obufByte = s.obufByte := by
  funext i; simp [State.obufByte, hb, he]

end Sys2Proof.Machine
end

