-- ==== Sys2Proof/Laws/Step.lean ====
section
/-! SUPPORT. Once for each shared operation: what it can do. The inversion of a step (`step_cases`), of the core's five steps and of the host's lines;
proofs cite these instead of unfolding. -/

namespace Sys2Proof.Machine

theorem next_eq {a b : State} (h : (Host.Outcome.next a : Result) = .next b) : b = a := by cases h; rfl

/-! ### Who moves -/

theorem coreReady_iff (s : State) : coreReady s = true ↔ ∃ k, enabledStep s.blk = some k := by
  simp [coreReady, Option.isSome_iff_exists]

theorem hostReady_iff (s : State) : hostReady s = true ↔ ∃ l rest, s.pending = l :: rest := by
  cases h : s.pending <;> simp [hostReady, h]

theorem nextAgent_core {s : State} (h : nextAgent s = some .core) : ∃ k, enabledStep s.blk = some k := by
  rw [← coreReady_iff]
  unfold nextAgent at h
  by_contra hc
  split_ifs at h <;> simp_all

theorem nextAgent_host {s : State} (h : nextAgent s = some .host) : ∃ l rest, s.pending = l :: rest := by
  rw [← hostReady_iff]
  unfold nextAgent at h
  by_contra hc
  split_ifs at h <;> simp_all

/-- With nothing pending the core moves whenever it can. -/
theorem nextAgent_of_no_pending {s : State} (h : s.pending = []) :
    nextAgent s = if (enabledStep s.blk).isSome then some .core else none := by
  simp [nextAgent, hostReady, coreReady, h]

/-- With nothing pending no turn is used up. -/
theorem spendTurn_of_no_pending {s : State} (h : s.pending = []) : spendTurn s = s := by simp [spendTurn, hostReady, h]

theorem step_core {s : State} (h : nextAgent s = some .core) : step s = coreAct (spendTurn s) := by simp [step, act, h]

theorem step_core_of_enabled {s : State} {k : CoreStep} (h : nextAgent s = some .core) (hk : enabledStep s.blk = some k) :
    step s = runStep k (spendTurn s) := by simp [step_core h, coreAct, hk]

theorem step_host {s : State} {l : HostLine} {rest : List HostLine} (h : s.hostActs l rest) : step s = runLine l (s.popped rest) := by
  simp [step, act, h.1, hostAct, h.2, State.popped]

@[simp] theorem State.popped_cfg (s : State) (r : List HostLine) : (s.popped r).cfg = s.cfg := by simp [State.popped]
@[simp] theorem State.popped_blk (s : State) (r : List HostLine) : (s.popped r).blk = s.blk := by simp [State.popped]
@[simp] theorem State.popped_epoch (s : State) (r : List HostLine) : (s.popped r).epoch = s.epoch := by simp [State.popped]
@[simp] theorem State.popped_pending (s : State) (r : List HostLine) : (s.popped r).pending = r := rfl
@[simp] theorem State.popped_replies (s : State) (r : List HostLine) : (s.popped r).replies = s.replies := by simp [State.popped]

/-- A step is nothing, a core step, or a line of the host. -/
theorem step_cases {s t : State} (h : step s = .next t) :
    (nextAgent s = none ∧ t = s) ∨
    (nextAgent s = some .core ∧ ∃ k, enabledStep s.blk = some k ∧ runStep k (spendTurn s) = .next t) ∨
    (∃ l rest, s.hostActs l rest ∧ runLine l (s.popped rest) = .next t) := by
  rcases ha : nextAgent s with _ | a | a
  · left; simp [step, act, ha] at h; exact ⟨rfl, h.symm⟩
  · right; right
    obtain ⟨l, rest, hp⟩ := nextAgent_host ha
    exact ⟨l, rest, ⟨ha, hp⟩, by rw [← step_host ⟨ha, hp⟩, h]⟩
  · right; left
    obtain ⟨k, hk⟩ := nextAgent_core ha
    exact ⟨rfl, k, hk, by rw [← step_core_of_enabled ha hk, h]⟩

/-! ### Which step is enabled -/

/-- An enabled step is the one of its phase. -/
theorem enabledStep_cases {b : Block} {k : CoreStep} (h : enabledStep b = some k) :
    (k = .init ∧ b.tblrdy = false) ∨
    (b.running ∧ b.mode = .enc ∧
      ((k = .encGroup ∧ b.iptr.toNat < b.len.toNat) ∨ (k = .encFinish ∧ b.len.toNat ≤ b.iptr.toNat))) ∨
    (b.running ∧ b.mode = .dec ∧
      ((k = .decGroup ∧ b.iptr.toNat < b.len.toNat) ∨ (k = .decFinish ∧ b.len.toNat ≤ b.iptr.toNat))) := by
  unfold enabledStep at h
  cases ht : b.tblrdy <;> cases hb : b.busy <;> cases hm : b.mode <;> by_cases hl : b.iptr.toNat < b.len.toNat <;>
    simp_all [Block.running]

/-! ### The core's steps -/

theorem encGroup_next {s t : State} (h : encGroup s = .next t) :
    s.encTop < s.cfg.ibufSize ∧ s.blk.optr.toNat + 3 < s.cfg.obufSize ∧
    t = s.setBlk { s.blk with
      obuf := Memory.writeList s.blk.obuf s.blk.optr.toNat s.groupChars.toList
      iptr := s.blk.iptr + 3#16, optr := s.blk.optr + 4#16 } := by
  unfold encGroup at h
  split_ifs at h
  exact ⟨by omega, by omega, by simpa using h.symm⟩

theorem encFinish_next {s t : State} (h : encFinish s = .next t) :
    padCount s.blk.len.toNat ≤ s.blk.olen.toNat ∧ s.blk.olen.toNat < s.cfg.obufSize ∧
    t = s.setBlk { s.blk with
      obuf := padAndTerm s.cfg s.blk.obuf s.blk.olen.toNat (padCount s.blk.len.toNat), busy := false, done := true } := by
  unfold encFinish at h
  split_ifs at h
  exact ⟨by omega, by omega, by simpa [Block.complete] using h.symm⟩

theorem decGroup_next {s t : State} (h : decGroup s = .next t) :
    s.blk.iptr.toNat + 3 < s.cfg.ibufSize ∧ s.blk.len.toNat - 1 < s.cfg.ibufSize ∧
    ((∃ e, classifyGroup s.blk.inv s.ibufByte s.blk.len.toNat s.blk.iptr.toNat = .error e ∧ t = s.setBlk (s.blk.raise e)) ∨
     (∃ w, classifyGroup s.blk.inv s.ibufByte s.blk.len.toNat s.blk.iptr.toNat = .ok w ∧
       (s.emitted w = [] ∨ s.blk.optr.toNat + (s.emitted w).length ≤ s.cfg.obufSize) ∧
       t = s.setBlk { s.blk with
         obuf := Memory.writeList s.blk.obuf s.blk.optr.toNat (s.emitted w)
         optr := s.blk.optr + BitVec.ofNat 16 (s.emitted w).length, iptr := s.blk.iptr + 4#16 })) := by
  unfold decGroup at h
  split_ifs at h
  refine ⟨by omega, by omega, ?_⟩
  split at h
  · rename_i e he; exact .inl ⟨e, he, by simpa using h.symm⟩
  · rename_i w hw
    unfold decEmit at h
    split_ifs at h with hc
    refine .inr ⟨w, hw, ?_, by simpa using h.symm⟩
    by_cases he : s.emitted w = []
    · exact .inl he
    · right; by_contra hb; exact hc ⟨he, by omega⟩

theorem encGroup_of {s : State} (h1 : s.encTop < s.cfg.ibufSize) (h2 : s.blk.optr.toNat + 3 < s.cfg.obufSize) :
    encGroup s = .next (s.setBlk { s.blk with
      obuf := Memory.writeList s.blk.obuf s.blk.optr.toNat s.groupChars.toList
      iptr := s.blk.iptr + 3#16, optr := s.blk.optr + 4#16 }) := by
  rw [encGroup, if_neg (Nat.not_le.mpr h1), if_neg (Nat.not_le.mpr h2)]

theorem encFinish_of {s : State} (h1 : padCount s.blk.len.toNat ≤ s.blk.olen.toNat) (h2 : s.blk.olen.toNat < s.cfg.obufSize) :
    encFinish s = .next (s.setBlk { s.blk with
      obuf := padAndTerm s.cfg s.blk.obuf s.blk.olen.toNat (padCount s.blk.len.toNat), busy := false, done := true }) := by
  rw [encFinish, if_neg (Nat.not_lt.mpr h1), if_neg (Nat.not_le.mpr h2)]; rfl

theorem decGroup_of_error {s : State} {e : CmdError} (h1 : s.blk.iptr.toNat + 3 < s.cfg.ibufSize) (h2 : s.blk.len.toNat - 1 < s.cfg.ibufSize)
    (he : classifyGroup s.blk.inv s.ibufByte s.blk.len.toNat s.blk.iptr.toNat = .error e) :
    decGroup s = .next (s.setBlk (s.blk.raise e)) := by
  rw [decGroup, if_neg (Nat.not_le.mpr h1), if_neg (Nat.not_le.mpr h2), he]

theorem decGroup_of_ok {s : State} {w : Group} (h1 : s.blk.iptr.toNat + 3 < s.cfg.ibufSize) (h2 : s.blk.len.toNat - 1 < s.cfg.ibufSize)
    (hw : classifyGroup s.blk.inv s.ibufByte s.blk.len.toNat s.blk.iptr.toNat = .ok w)
    (h3 : s.blk.optr.toNat + (s.emitted w).length ≤ s.cfg.obufSize) :
    decGroup s = .next (s.setBlk { s.blk with
      obuf := Memory.writeList s.blk.obuf s.blk.optr.toNat (s.emitted w)
      optr := s.blk.optr + BitVec.ofNat 16 (s.emitted w).length, iptr := s.blk.iptr + 4#16 }) := by
  rw [decGroup, if_neg (Nat.not_le.mpr h1), if_neg (Nat.not_le.mpr h2), hw]
  exact if_neg (fun h => absurd h.2 (Nat.not_lt.mpr h3))

/-- How many octets a DEC_GROUP emits (rule R137, part 2). -/
theorem State.emitted_length (s : State) (w : Group) : (s.emitted w).length = min (s.blk.olen.toNat - s.blk.optr.toNat) 3 := by
  simp [State.emitted, octets]

@[simp] theorem State.groupChars_length (s : State) : s.groupChars.toList.length = 4 := by simp

/-- A classified character: a legal pad, an alphabet character, or the error of its kind at its index. -/
theorem classify_cases (inv : Vector InvEntry 256) (t : Nat → Byte) (n i : Nat) :
    (t i = pad ∧ padLegal t n i = true ∧ classify inv t n i = .ok 0#6) ∨
    (t i = pad ∧ padLegal t n i = false ∧ classify inv t n i = .error (.pad (BitVec.ofNat 16 i))) ∨
    (t i ≠ pad ∧ (ch2sx inv (t i)).v = true ∧ classify inv t n i = .ok (ch2sx inv (t i)).val) ∨
    (t i ≠ pad ∧ (ch2sx inv (t i)).v = false ∧ classify inv t n i = .error (.char (BitVec.ofNat 16 i))) := by
  unfold classify
  by_cases h1 : t i = pad <;> by_cases h2 : padLegal t n i <;> by_cases h3 : (ch2sx inv (t i)).v <;> simp_all

/-! ### The issue of a command -/

/-- What the issue of a command or its drop makes of the block (rules R86, R87). -/
theorem exec_next {i : Instr} {s t : State} (h : exec i s = .next t) :
    t = s.setBlk t.blk ∧
    ((s.blk.busy = true ∧ t.blk = s.blk.dropWrite) ∨
     (s.blk.busy = false ∧ ∃ m len,
       ((t.blk = (s.blk.latch m len).raise .len) ∨ (t.blk = (s.blk.latch m len).raise .fmt) ∨
        (m = .enc ∧ len.toNat ≤ s.cfg.encSize ∧ t.blk = (s.blk.latch m len).accept (encLen len.toNat)) ∨
        (m = .dec ∧ len.toNat ≤ s.cfg.decSize ∧ len.toNat % 4 = 0 ∧
          t.blk = (s.blk.latch m len).accept (decLen s.ibufByte len.toNat))))) := by
  cases i with
  | enc len =>
    simp only [exec, execEnc] at h
    split_ifs at h with hb hl <;> obtain rfl := next_eq h
    · exact ⟨rfl, .inl ⟨hb, rfl⟩⟩
    · exact ⟨rfl, .inr ⟨by simpa using hb, .enc, len, .inl rfl⟩⟩
    · exact ⟨rfl, .inr ⟨by simpa using hb, .enc, len, .inr (.inr (.inl ⟨rfl, by omega, rfl⟩))⟩⟩
  | dec len =>
    simp only [exec, execDec] at h
    split_ifs at h with hb hl hm <;> obtain rfl := next_eq h
    · exact ⟨rfl, .inl ⟨hb, rfl⟩⟩
    · exact ⟨rfl, .inr ⟨by simpa using hb, .dec, len, .inl rfl⟩⟩
    · exact ⟨rfl, .inr ⟨by simpa using hb, .dec, len, .inr (.inl rfl)⟩⟩
    · exact ⟨rfl, .inr ⟨by simpa using hb, .dec, len, .inr (.inr (.inr ⟨rfl, by omega, by omega, rfl⟩))⟩⟩

/-- The issue of an illegal word (rules R86, R87, R161). -/
theorem issueIllegal_next {w : Word} {s t : State} (h : issueIllegal w s = .next t) :
    t = s.setBlk t.blk ∧
    ((s.blk.busy = true ∧ t.blk = s.blk.dropWrite) ∨ (s.blk.busy = false ∧ ∃ m len, t.blk = (s.blk.latch m len).raise .cmd)) := by
  unfold issueIllegal at h
  split_ifs at h with hb <;> obtain rfl := next_eq h
  · exact ⟨rfl, .inl ⟨hb, rfl⟩⟩
  · exact ⟨rfl, .inr ⟨by simpa using hb, _, _, rfl⟩⟩

/-- A line of the host always answers a next state, and so does every issue. -/
theorem exec_total (i : Instr) (s : State) : ∃ t, exec i s = .next t := by
  cases i <;> simp only [exec, execEnc, execDec] <;> split_ifs <;> exact ⟨_, rfl⟩

theorem runLine_total (l : HostLine) (s : State) : ∃ t, runLine l s = .next t := by
  cases l with
  | wcsr n w =>
    simp only [runLine, hwcsr]
    split_ifs
    · split
      · exact exec_total _ _
      · unfold issueIllegal; split_ifs <;> exact ⟨_, rfl⟩
    · exact ⟨_, rfl⟩
  | _ => exact ⟨_, rfl⟩

/-- What a line of the host makes of the block: nothing, a dropped write, a byte of IBUF, a completed or accepted issue, or the reset. -/
theorem runLine_blk {l : HostLine} {s t : State} (h : runLine l s = .next t) :
    t.cfg = s.cfg ∧
    ((l ≠ .rst ∧ t.epoch = s.epoch ∧
      (t.blk = s.blk ∨
       (s.blk.busy = true ∧ t.blk = s.blk.dropWrite) ∨
       (s.blk.busy = false ∧ ∃ i b, i < s.cfg.ibufSize ∧ t.blk = { s.blk with ibuf := Memory.write s.blk.ibuf i b }) ∨
       (s.blk.busy = false ∧ (∃ w, l = .wcsr 0#3 w) ∧ ∃ m len e, (e = .cmd ∨ e = .len ∨ e = .fmt) ∧ t.blk = (s.blk.latch m len).raise e) ∨
       (s.blk.busy = false ∧ (∃ w, l = .wcsr 0#3 w) ∧ ∃ len, len.toNat ≤ s.cfg.encSize ∧
          t.blk = (s.blk.latch .enc len).accept (encLen len.toNat)) ∨
       (s.blk.busy = false ∧ (∃ w, l = .wcsr 0#3 w) ∧ ∃ len, len.toNat ≤ s.cfg.decSize ∧ len.toNat % 4 = 0 ∧
          t.blk = (s.blk.latch .dec len).accept (decLen s.ibufByte len.toNat)))) ∨
     (l = .rst ∧ t.blk = Block.reset)) := by
  cases l with
  | wcsr n w =>
    simp only [runLine, hwcsr] at h
    split_ifs at h with hn
    · subst hn
      split at h
      · obtain ⟨ht, hc⟩ := exec_next h
        refine ⟨by rw [ht]; rfl, .inl ⟨by simp, by rw [ht]; rfl, ?_⟩⟩
        rcases hc with ⟨hb, he⟩ | ⟨hb, m, len, he | he | ⟨rfl, h1, he⟩ | ⟨rfl, h1, h2, he⟩⟩
        · exact .inr (.inl ⟨hb, he⟩)
        · exact .inr (.inr (.inr (.inl ⟨hb, ⟨w, rfl⟩, m, len, .len, by simp, he⟩)))
        · exact .inr (.inr (.inr (.inl ⟨hb, ⟨w, rfl⟩, m, len, .fmt, by simp, he⟩)))
        · exact .inr (.inr (.inr (.inr (.inl ⟨hb, ⟨w, rfl⟩, len, h1, he⟩))))
        · exact .inr (.inr (.inr (.inr (.inr ⟨hb, ⟨w, rfl⟩, len, h1, h2, he⟩))))
      · obtain ⟨ht, hc⟩ := issueIllegal_next h
        refine ⟨by rw [ht]; rfl, .inl ⟨by simp, by rw [ht]; rfl, ?_⟩⟩
        rcases hc with ⟨hb, he⟩ | ⟨hb, m, len, he⟩
        · exact .inr (.inl ⟨hb, he⟩)
        · exact .inr (.inr (.inr (.inl ⟨hb, ⟨w, rfl⟩, m, len, .cmd, by simp, he⟩)))
    · obtain rfl := next_eq h
      exact ⟨rfl, .inl ⟨by simp, rfl, .inl rfl⟩⟩
  | rcsr n => obtain rfl := next_eq h; exact ⟨rfl, .inl ⟨by simp, rfl, .inl rfl⟩⟩
  | rob i => obtain rfl := next_eq h; exact ⟨rfl, .inl ⟨by simp, rfl, .inl rfl⟩⟩
  | wait => obtain rfl := next_eq h; exact ⟨by simp, .inl ⟨by simp, by simp, .inl (by simp)⟩⟩
  | rst => obtain rfl := next_eq h; exact ⟨rfl, .inr ⟨rfl, rfl⟩⟩
  | wib i b =>
    simp only [runLine, hwib] at h
    split_ifs at h with hb hi <;> obtain rfl := next_eq h
    · exact ⟨rfl, .inl ⟨by simp, rfl, .inr (.inl ⟨hb, rfl⟩)⟩⟩
    · exact ⟨rfl, .inl ⟨by simp, rfl, .inr (.inr (.inl ⟨by simpa using hb, _, b, hi, rfl⟩))⟩⟩
    · exact ⟨rfl, .inl ⟨by simp, rfl, .inl rfl⟩⟩

/-- A line of the host leaves the turns alone, and puts at most a standing WAIT back before the lines that remain. -/
theorem runLine_queues {l : HostLine} {s t : State} (h : runLine l s = .next t) :
    t.turns = s.turns ∧ (t.pending = s.pending ∨ t.pending = .wait :: s.pending) := by
  cases l with
  | wcsr n w =>
    simp only [runLine, hwcsr] at h
    split_ifs at h
    · split at h
      · rw [(exec_next h).1]; exact ⟨rfl, .inl rfl⟩
      · rw [(issueIllegal_next h).1]; exact ⟨rfl, .inl rfl⟩
    · obtain rfl := next_eq h; exact ⟨rfl, .inl rfl⟩
  | rcsr n => obtain rfl := next_eq h; exact ⟨rfl, .inl rfl⟩
  | rob i => obtain rfl := next_eq h; exact ⟨rfl, .inl rfl⟩
  | rst => obtain rfl := next_eq h; exact ⟨rfl, .inl rfl⟩
  | wib i b =>
    simp only [runLine, hwib] at h
    split_ifs at h <;> obtain rfl := next_eq h <;> exact ⟨rfl, .inl rfl⟩
  | wait =>
    simp only [runLine, hwait] at h
    split_ifs at h <;> obtain rfl := next_eq h
    · exact ⟨rfl, .inr rfl⟩
    · exact ⟨rfl, .inl rfl⟩

/-- A core step changes the block alone. -/
theorem runStep_frame {k : CoreStep} {s t : State} (h : runStep k s = .next t) : t = s.setBlk t.blk ∧ t.blk.ibuf = s.blk.ibuf := by
  cases k with
  | init => obtain rfl := next_eq h; exact ⟨rfl, rfl⟩
  | encGroup => obtain ⟨-, -, rfl⟩ := encGroup_next h; exact ⟨rfl, rfl⟩
  | encFinish => obtain ⟨-, -, rfl⟩ := encFinish_next h; exact ⟨rfl, rfl⟩
  | decGroup => obtain ⟨-, -, ⟨e, -, rfl⟩ | ⟨w, -, -, rfl⟩⟩ := decGroup_next h <;> exact ⟨rfl, rfl⟩
  | decFinish => obtain rfl := next_eq h; exact ⟨rfl, rfl⟩

/-! ### Runs -/

/-- A run of one step more. -/
theorem run_step {s t : State} (k : Nat) (h : step s = .next t) : run (k + 1) s = run k t := by
  have h' : core.step s = .next t := h
  simp only [run, Host.Core.run, h']
  rfl
/-- Runs in sequence. -/
theorem run_add {j k : Nat} {s t : State} (h : run j s = .next t) : run (j + k) s = run k t := by
  induction j generalizing s with
  | zero => obtain rfl := next_eq h; rw [Nat.zero_add]
  | succ j ih =>
    rcases hs : step s with u | f | r
    · rw [run_step j hs] at h
      rw [Nat.succ_add, run_step _ hs, ih h]
    · have h' : core.step s = .fault f := hs
      simp [run, Host.Core.run, h'] at h
    · have h' : core.step s = .refused r := hs
      simp [run, Host.Core.run, h'] at h

end Sys2Proof.Machine
end

