-- ==== Sys2Proof/Tests/Slice0.lean ====
section
/-! SUPPORT. The model's own tests, each about one step; expected values are from spec/95_test_vectors.md and the encodings of spec/30_encoding.md. After
them, for every statement with premises, a `witness_…`: concrete data that meet all of its premises together. -/

namespace Sys2Proof.Tests

open Sys2Proof.Machine

/-! ### Helpers -/

/-- The state of a next outcome. -/
def after : Result → Option State
  | .next t => some t
  | .fault _ => none
  | .refused _ => none

/-- Idle after INIT, with bytes at the start of IBUF. -/
def loaded (bs : List Byte) : State := State.reset.setBlk { Block.reset.init with ibuf := Memory.writeList [] 0 bs }

/-- A host with lines to carry out that moves first. -/
def hosted (s : State) (ls : List HostLine) : State := { s with pending := ls, turns := [.host] }

/-- A running command of which the groups before `iptr` are done and have left `out` in OBUF. -/
def running (bs : List Byte) (m : Mode) (len olen iptr : Nat) (out : List Byte) : State :=
  (loaded bs).setBlk { ((loaded bs).blk.latch m (BitVec.ofNat 16 len)).accept olen with
    iptr := BitVec.ofNat 16 iptr, optr := BitVec.ofNat 16 out.length, obuf := Memory.writeList [] 0 out }

/-- A list read as a text. -/
def text (bs : List Byte) : Text := fun i => bs.getD i 0x00#8

/-- "Man" -/
def man : List Byte := [0x4D#8, 0x61#8, 0x6E#8]
/-- "TWFu" -/
def twfu : List Byte := [0x54#8, 0x57#8, 0x46#8, 0x75#8]
/-- "TQ==" -/
def tqPad : List Byte := [0x54#8, 0x51#8, 0x3D#8, 0x3D#8]
/-- "TWE=" -/
def twePad : List Byte := [0x54#8, 0x57#8, 0x45#8, 0x3D#8]
/-- "Tf==" -/
def tfPad : List Byte := [0x54#8, 0x66#8, 0x3D#8, 0x3D#8]
/-- "TWH=" -/
def twhPad : List Byte := [0x54#8, 0x57#8, 0x48#8, 0x3D#8]
/-- "=WFu" -/
def badFirst : List Byte := [0x3D#8, 0x57#8, 0x46#8, 0x75#8]
/-- "TWF!" -/
def badLast : List Byte := [0x54#8, 0x57#8, 0x46#8, 0x21#8]

/-! ### What is ill-formed is refused -/

theorem test_encSize_zero_refused : ¬ Config.wf { encSize := 0, term := 0x00#8 } := by decide
theorem test_encSize_above_limit_refused : ¬ Config.wf { encSize := 49150, term := 0x00#8 } := by decide
theorem test_encSize_limits_accepted : Config.wf { encSize := 1, term := 0x00#8 } ∧ Config.wf { encSize := 49149, term := 0xFF#8 } := by decide
theorem test_reserved_bit_17_refused : wordLegal 0x00020000#32 = false := by decide
theorem test_reserved_bit_31_refused : wordLegal 0x80000003#32 = false := by decide
theorem test_legal_word_accepted : wordLegal 0x0001FFFF#32 = true ∧ Instr.wf (.dec 0xFFFF#16) = true := by decide
theorem test_capacities : Config.standard.decSize = 80 ∧ Config.decSize { encSize := 61, term := 0x00#8 } = 84 ∧
    Config.decSize { encSize := 49149, term := 0x00#8 } = 65532 := by decide

/-! ### Words written out from format C: RSV (15 bits), MODE, LEN (16 bits) -/

theorem test_decode_enc_10 : decode 0b000000000000000_0_0000000000001010#32 = .ok (.enc 10#16) := by decide
theorem test_decode_dec_4 : decode 0b000000000000000_1_0000000000000100#32 = .ok (.dec 4#16) := by decide
theorem test_decode_by_name : decode 0b000000000000010_0_0000000000000100#32 = .error (.reservedBits 2#15) := by decide
theorem test_encode_dec_80 : encode (.dec 80#16) = 0x00010050#32 := by decide
theorem test_table_rows : decodeTableWord 32 0x1B = some (.enc 27#16) ∧ decodeTableWord 32 0x10028 = some (.dec 40#16) := by decide

/-! ### The datapath, from section 2 of the vectors -/

theorem test_expand_FFFEFD : exp3to4 0xFF#8 0xFE#8 0xFD#8 = #v[0x2F#8, 0x2F#8, 0x37#8, 0x39#8] := by decide
theorem test_expand_69B71D : exp3to4 0x69#8 0xB7#8 0x1D#8 = #v[0x61#8, 0x62#8, 0x63#8, 0x64#8] := by decide
theorem test_join_TWH : octets (join4 19#6 22#6 7#6 0#6) = [0x4D#8, 0x61#8, 0xC0#8] := by decide
theorem test_inverse_of_z : invOf 0x7A#8 = { v := true, val := 51#6 } := by decide
theorem test_inverse_of_bracket : invOf 0x5B#8 = { v := false, val := 0#6 } := by decide
theorem test_pad_legality : padLegal (text [0x54#8, 0x51#8, 0x3D#8, 0x41#8]) 4 2 = false ∧ padLegal (text tqPad) 4 2 = true ∧
    padLegal (text twePad) 4 3 = true := by decide

/-! ### One step each -/

/-- P6, T1: reset, then INIT. -/
theorem test_init : (after (step State.reset)).map (fun t => (readCsr 1#3 t, ch2sx t.blk.inv 0x54#8)) =
    some (0x00000008#32, { v := true, val := 19#6 }) := by decide
/-- T1: `ENC 1` accepted. -/
theorem test_enc_issue : (after (step (hosted (loaded man) [.wcsr 0#3 0x00000001#32]))).map (fun t => (readCsr 1#3 t, readCsr 2#3 t)) =
    some (0x00000009#32, 4#32) := by decide
/-- P6: `ENC 61`. -/
theorem test_enc_too_long : (after (exec (.enc 61#16) (loaded []))).map (fun t => (readCsr 1#3 t, readCsr 2#3 t)) =
    some (0x0000002E#32, 0#32) := by decide
/-- T3: `DEC 4` on "TWE=" has output length 2. -/
theorem test_dec_issue : (after (exec (.dec 4#16) (loaded twePad))).map (fun t => (readCsr 1#3 t, readCsr 2#3 t)) =
    some (0x00000009#32, 2#32) := by decide
/-- P3: `DEC 3`. -/
theorem test_dec_format : (after (exec (.dec 3#16) (loaded twfu))).map (fun t => (readCsr 1#3 t, readCsr 3#3 t)) =
    some (0x0000003E#32, 0#32) := by decide
/-- P3: bit 18 set; MODE 0 and LEN 4 are latched. -/
theorem test_illegal_word : (after (step (hosted (loaded []) [.wcsr 0#3 0x00040004#32]))).map (fun t => (readCsr 1#3 t, readCsr 0#3 t)) =
    some (0x0000001E#32, 4#32) := by decide
/-- T5: a write while busy. -/
theorem test_write_while_busy : (after (step (hosted (running man .enc 3 4 0 []) [.wib 0#16 0x58#8]))).map
    (fun t => (readCsr 1#3 t, Memory.read? t.blk.ibuf 0)) = some (0x00000089#32, some 0x4D#8) := by decide
/-- T2, second group. -/
theorem test_enc_group : (after (step (running [0x4D#8, 0x61#8, 0x6E#8, 0x79#8] .enc 4 8 3 twfu))).map
    (fun t => (t.blk.obuf.map (·.2), t.blk.iptr, t.blk.optr)) =
    some ([0x54#8, 0x57#8, 0x46#8, 0x75#8, 0x65#8, 0x51#8, 0x41#8, 0x41#8], 6#16, 8#16) := by decide
/-- T1: ENC_FINISH. -/
theorem test_enc_finish : (after (step (running [0x4D#8] .enc 1 4 3 [0x54#8, 0x51#8, 0x41#8, 0x41#8]))).map
    (fun t => (t.blk.obuf.map (·.2), readCsr 1#3 t)) = some ([0x54#8, 0x51#8, 0x3D#8, 0x3D#8, 0x00#8], 0x0000000A#32) := by decide
/-- T3: two of three octets are emitted. -/
theorem test_dec_group : (after (step (running twePad .dec 4 2 0 []))).map (fun t => (t.blk.obuf, t.blk.iptr, t.blk.optr)) =
    some ([(0, 0x4D#8), (1, 0x61#8)], 4#16, 2#16) := by decide
/-- T4: the second group of "TWFuT!E=" fails at index 5. -/
theorem test_dec_group_fails : (after (step (running (twfu ++ [0x54#8, 0x21#8, 0x45#8, 0x3D#8]) .dec 8 5 4 man))).map
    (fun t => (readCsr 1#3 t, readCsr 3#3 t, readCsr 2#3 t, t.blk.iptr)) = some (0x0000004E#32, 5#32, 0#32, 4#16) := by decide
/-- T3: DEC_FINISH. -/
theorem test_dec_finish : (after (step (running twePad .dec 4 2 4 [0x4D#8, 0x61#8]))).map (fun t => (readCsr 1#3 t, t.blk.optr)) =
    some (0x0000000A#32, 2#16) := by decide
/-- S12: CAP. -/
theorem test_read_cap : (after (step (hosted (loaded []) [.rcsr 4#3]))).map (fun t => t.replies) = some [.csr 4#3 0x0050003C#32] := by decide
/-- The next step after a command is placed from reset runs it. -/
theorem test_placed_command : (after (step (State.reset.withFetchWord 32 0x10054))).map (fun t => (readCsr 1#3 t, readCsr 0#3 t)) =
    some (0x0000002E#32, 0x00010054#32) := by decide

/-! ### The invariant of the states used below -/

/-- The invariant of a state whose table INIT has built, from its decidable part. -/
theorem inv_of {s : State} (ht : s.blk.tblrdy = true) (hi : s.blk.inv = buildInv Block.reset.inv)
    (hc : s.cfg.wf ∧ s.blk.ibuf.wf ∧ s.blk.ibuf.below s.cfg.ibufSize ∧ s.blk.obuf.wf ∧ s.blk.obuf.below s.cfg.obufSize)
    (hs : (s.blk.done = true → s.blk.busy = false) ∧
      (s.blk.err = true → s.blk.done = true ∧ s.blk.ecode ≠ 0#3 ∧ s.blk.olen = 0#16) ∧
      (s.blk.err = false → s.blk.ecode = 0#3 ∧ s.blk.erridx = 0#16) ∧ s.blk.ecode.toNat ≤ 3 ∧ s.blk.erridx = 0#16)
    (he : s.blk.running → s.blk.mode = .enc → s.blk.len.toNat ≤ s.cfg.encSize ∧ s.blk.iptr.toNat % 3 = 0 ∧
      s.blk.optr.toNat = 4 * (s.blk.iptr.toNat / 3) ∧ s.blk.olen.toNat = encLen s.blk.len.toNat ∧
      s.blk.iptr.toNat ≤ 3 * ((s.blk.len.toNat + 2) / 3))
    (hd : s.blk.running → s.blk.mode = .dec → s.blk.len.toNat ≤ s.cfg.decSize ∧ s.blk.len.toNat % 4 = 0 ∧ s.blk.iptr.toNat % 4 = 0 ∧
      s.blk.iptr.toNat ≤ s.blk.len.toNat ∧ s.blk.optr.toNat = min s.blk.olen.toNat (3 * (s.blk.iptr.toNat / 4)))
    (ho : s.blk.olen.toNat ≤ s.cfg.decSize) : s.Inv where
  cfg := hc.1
  ibufWf := hc.2.1
  ibufBelow := hc.2.2.1
  obufWf := hc.2.2.2.1
  obufBelow := hc.2.2.2.2
  notReady h := absurd (ht.symm.trans h) (by decide)
  tableReset h := absurd (ht.symm.trans h) (by decide)
  doneIdle := hs.1
  errDone := hs.2.1
  noErr := hs.2.2.1
  ecodeLe := Nat.le_trans hs.2.2.2.1 (by decide)
  issueErr _ := hs.2.2.2.2
  groupErr h := by have := hs.2.2.2.1; rcases h with h | h <;> rw [h] at this <;> exact absurd this (by decide)
  encLenOk h m := (he h m).1
  decLenOk h m := ⟨(hd h m).1, (hd h m).2.1⟩
  encPtrs h m := (he h m).2
  decPtrs h m := (hd h m).2.2
  tableBuilt _ c := by
    rw [hi, ch2sx_buildInv]
    split
    · rfl
    · have h : ∀ c : Byte, (invOf c).v = false → { v := false, val := 0#6 } = invOf c := by decide
      have e : ch2sx Block.reset.inv c = { v := false, val := 0#6 } := by simp [ch2sx, Block.reset, Vector.get_eq_getElem]
      rw [e]
      exact h c (by simp_all)
  olenLe := ho

theorem inv_loaded_man : (loaded man).Inv := by apply inv_of rfl rfl <;> decide
theorem inv_loaded_twfu : (loaded twfu).Inv := by apply inv_of rfl rfl <;> decide
theorem inv_loaded_tqPad : (loaded tqPad).Inv := by apply inv_of rfl rfl <;> decide
theorem inv_loaded_tfPad : (loaded tfPad).Inv := by apply inv_of rfl rfl <;> decide
theorem inv_loaded_badFirst : (loaded badFirst).Inv := by apply inv_of rfl rfl <;> decide
theorem inv_loaded_badLast : (loaded badLast).Inv := by apply inv_of rfl rfl <;> decide
theorem inv_enc_start (n : Fin 3) : (running man .enc (n.val + 1) 4 0 []).Inv := by
  revert n; intro n; match n with
  | 0 => apply inv_of rfl rfl <;> decide
  | 1 => apply inv_of rfl rfl <;> decide
  | 2 => apply inv_of rfl rfl <;> decide
theorem inv_enc_end (n : Fin 3) : (running man .enc (n.val + 1) 4 3 twfu).Inv := by
  match n with
  | 0 => apply inv_of rfl rfl <;> decide
  | 1 => apply inv_of rfl rfl <;> decide
  | 2 => apply inv_of rfl rfl <;> decide
theorem inv_dec_start : (running twfu .dec 4 3 0 []).Inv := by apply inv_of rfl rfl <;> decide
theorem inv_dec_badFirst : (running badFirst .dec 4 3 0 []).Inv := by apply inv_of rfl rfl <;> decide
theorem inv_dec_badLast : (running badLast .dec 4 3 0 []).Inv := by apply inv_of rfl rfl <;> decide

/-! ### Witnesses -/

/-- Idle, the host first. -/
def idleHost (l : HostLine) : State := hosted (loaded twfu) [l]
/-- ENC 3 of "Man" running, the host first. -/
def busyHost (l : HostLine) : State := hosted (running man .enc 3 4 0 []) [l]

theorem witness_ResetTakesEffectInAnyState : (busyHost .rst).hostActs .rst [] ∧ (idleHost .rst).hostActs .rst [] := by decide
theorem witness_InitBuildsInverseTable : State.reset.blk.tblrdy = false ∧ nextAgent State.reset = some .core ∧
    sx2ch 63#6 = 0x2F#8 ∧ ∀ k : Sextet, sx2ch k ≠ pad := by decide
theorem witness_TableReadOnlyUntilReset : (idleHost (.rcsr 0#3)).blk.tblrdy = true ∧ (after (step (idleHost (.rcsr 0#3)))).isSome = true ∧
    (idleHost .rst).blk.tblrdy = true ∧ (after (step (idleHost .rst))).isSome = true := by decide
theorem witness_AlphabetAndTableInverse : invOf 0x2F#8 = { v := true, val := 63#6 } := by decide
theorem witness_EncodeLengthAndPadTable : Config.standard.wf ∧ 60 ≤ Config.standard.encSize ∧ 60 % 3 = 0 ∧ 58 % 3 = 1 ∧ 59 % 3 = 2 := by decide
theorem witness_DecodeLengthAndPadPositions : 0 % 4 = 0 ∧ (4 % 4 = 0 ∧ 0 < 4 ∧ text twfu (4 - 1) ≠ pad) ∧
    (text twePad (4 - 1) = pad ∧ text twePad (4 - 2) ≠ pad) ∧ (text tqPad (4 - 1) = pad ∧ text tqPad (4 - 2) = pad) ∧ 3 < 4 := by decide
theorem witness_DecodeByMask : 0x0000FFFF#32 &&& 0xFFFF0000#32 = 0x00000000#32 ∧ 0x0001FFFF#32 &&& 0xFFFF0000#32 = 0x00010000#32 ∧
    0x00020000#32 &&& 0xFFFF0000#32 ≠ 0x00000000#32 ∧ 0x00020000#32 &&& 0xFFFF0000#32 ≠ 0x00010000#32 := by decide
theorem witness_StepRunsDecodedCommand :
    (idleHost (.wcsr 0#3 3#32)).hostActs (.wcsr 0#3 3#32) [] ∧ decode 3#32 = .ok (.enc 3#16) ∧
    (busyHost (.wcsr 0#3 0x00010004#32)).hostActs (.wcsr 0#3 0x00010004#32) [] ∧ decode 0x00010004#32 = .ok (.dec 4#16) := by decide
theorem witness_PlacedCommandRunsNext : decodeTableWord 32 0x1FFFF = some (.dec 0xFFFF#16) ∧ decodeTableWord 32 0 = some (.enc 0#16) := by decide
theorem witness_EncIssueAccepted : (loaded man).blk.busy = false ∧ (60#16).toNat ≤ (loaded man).cfg.encSize ∧
    (0#16).toNat ≤ (loaded man).cfg.encSize := by decide
theorem witness_DecIssueAccepted : (loaded twfu).blk.busy = false ∧ ((80#16).toNat ≤ (loaded twfu).cfg.decSize ∧ (80#16).toNat % 4 = 0) ∧
    ((0#16).toNat ≤ (loaded twfu).cfg.decSize ∧ (0#16).toNat % 4 = 0) := by decide
theorem witness_IssueLatchesClearsAndValidates_premises (w : Word) : (idleHost (.wcsr 0#3 w)).cfg.wf ∧
    (idleHost (.wcsr 0#3 w)).hostActs (.wcsr 0#3 w) [] ∧ (idleHost (.wcsr 0#3 w)).blk.busy = false := ⟨(show Config.standard.wf by decide), ⟨rfl, rfl⟩, rfl⟩
/-- A reserved bit; ENC 61; DEC 81; DEC 79; the accepted ENC 60 and DEC 80. -/
theorem witness_IssueLatchesClearsAndValidates_cases : (0x00020000#32).extractLsb' 17 15 ≠ 0#15 ∧
    ((0x0000003D#32).getLsbD 16 = false ∧ 60 < ((0x0000003D#32).extractLsb' 0 16).toNat) ∧
    ((0x00010051#32).getLsbD 16 = true ∧ 80 < ((0x00010051#32).extractLsb' 0 16).toNat) ∧
    ((0x0001004F#32).getLsbD 16 = true ∧ ((0x0001004F#32).extractLsb' 0 16).toNat = 79) ∧
    ((0x0000003C#32).getLsbD 16 = false ∧ ((0x0000003C#32).extractLsb' 0 16).toNat = 60) ∧
    ((0x00010050#32).getLsbD 16 = true ∧ ((0x00010050#32).extractLsb' 0 16).toNat = 80) := by decide
theorem witness_IllegalWordFailsWithErrCmd : ((idleHost (.wcsr 0#3 0x80000000#32)).hostActs (.wcsr 0#3 0x80000000#32) [] ∧
    (idleHost (.wcsr 0#3 0x80000000#32)).blk.busy = false ∧ (0x80000000#32).extractLsb' 17 15 ≠ 0#15) ∧
    ((idleHost (.wcsr 0#3 0x00030000#32)).hostActs (.wcsr 0#3 0x00030000#32) [] ∧
    (idleHost (.wcsr 0#3 0x00030000#32)).blk.busy = false ∧ (0x00030000#32).extractLsb' 17 15 ≠ 0#15) := by decide
theorem witness_LengthAboveCapacityFails : (loaded []).blk.busy = false ∧ (loaded []).cfg.encSize < (61#16).toNat ∧
    (loaded []).cfg.decSize < (81#16).toNat := by decide
theorem witness_DecodeLengthNotMultipleOfFourFails : (loaded []).blk.busy = false ∧ (79#16).toNat ≤ (loaded []).cfg.decSize ∧
    (79#16).toNat % 4 ≠ 0 ∧ (after (exec (.enc 79#16) (loaded []))).isSome = true := by decide
theorem witness_HostWriteWhileBusyDropped :
    (busyHost (.wcsr 0#3 0xFFFFFFFF#32)).hostActs (.wcsr 0#3 0xFFFFFFFF#32) [] ∧ (busyHost (.wcsr 0#3 0xFFFFFFFF#32)).blk.busy = true ∧
    (busyHost (.wib 0xFFFF#16 1#8)).hostActs (.wib 0xFFFF#16 1#8) [] ∧ (busyHost (.wib 0xFFFF#16 1#8)).blk.busy = true := by decide
theorem witness_HostWriteWhileBusyDropped_stays :
    ((busyHost .rst).setBlk (busyHost .rst).blk.dropWrite).blk.bsywr = true ∧
    (after (step ((busyHost .rst).setBlk (busyHost .rst).blk.dropWrite))).isSome = true := by decide
theorem witness_CommandWhileBusyDropped : State.reset.blk.busy = true := by decide
theorem witness_IssueFrame : (after (exec (.enc 3#16) (loaded man))).isSome = true ∧ (after (exec (.dec 4#16) State.reset)).isSome = true := by decide
theorem witness_CommandReadsBack : (idleHost (.wcsr 0#3 0x00040004#32)).hostActs (.wcsr 0#3 0x00040004#32) [] ∧
    (idleHost (.wcsr 0#3 0x00040004#32)).blk.busy = false ∧ (after (step (idleHost (.wcsr 0#3 0x00040004#32)))).isSome = true := by decide
/-- A partial group of one and of two bytes and a full one. -/
theorem witness_EncGroupEncodesThreeBytes : ∀ n : Fin 3, (running man .enc (n.val + 1) 4 0 []).Inv ∧
    (running man .enc (n.val + 1) 4 0 []).blk.running ∧ (running man .enc (n.val + 1) 4 0 []).blk.mode = .enc ∧
    (running man .enc (n.val + 1) 4 0 []).blk.iptr.toNat < (running man .enc (n.val + 1) 4 0 []).blk.len.toNat ∧
    nextAgent (running man .enc (n.val + 1) 4 0 []) = some .core := fun n => ⟨inv_enc_start n, by revert n; decide⟩
/-- Two pads, one pad and none. -/
theorem witness_EncFinishPadsAndTerminates : ∀ n : Fin 3, (running man .enc (n.val + 1) 4 3 twfu).Inv ∧
    (running man .enc (n.val + 1) 4 3 twfu).blk.running ∧ (running man .enc (n.val + 1) 4 3 twfu).blk.mode = .enc ∧
    (running man .enc (n.val + 1) 4 3 twfu).blk.len.toNat ≤ (running man .enc (n.val + 1) 4 3 twfu).blk.iptr.toNat ∧
    nextAgent (running man .enc (n.val + 1) 4 3 twfu) = some .core ∧
    padCount (running man .enc (n.val + 1) 4 3 twfu).blk.len.toNat = 2 - n.val :=
  fun n => ⟨inv_enc_end n, by revert n; decide⟩
theorem witness_DecGroupDecodesOrFails_premises : ∀ bs ∈ [twfu, badFirst, badLast], (running bs .dec 4 3 0 []).Inv ∧
    (running bs .dec 4 3 0 []).blk.running ∧ (running bs .dec 4 3 0 []).blk.mode = .dec ∧
    (running bs .dec 4 3 0 []).blk.iptr.toNat < (running bs .dec 4 3 0 []).blk.len.toNat ∧
    nextAgent (running bs .dec 4 3 0 []) = some .core := by
  intro bs h
  simp only [List.mem_cons, List.not_mem_nil, or_false] at h
  rcases h with rfl | rfl | rfl
  · exact ⟨inv_dec_start, by decide⟩
  · exact ⟨inv_dec_badFirst, by decide⟩
  · exact ⟨inv_dec_badLast, by decide⟩
/-- Four good characters; a first bad one at position 0; a first bad one at position 3. -/
theorem witness_DecGroupDecodesOrFails_cases :
    (∀ k < 4, ¬ badIndex (running twfu .dec 4 3 0 []).ibufByte 4 (0 + k)) ∧
    badIndex (running badFirst .dec 4 3 0 []).ibufByte 4 (0 + 0) ∧
    (∀ j < 3, ¬ badIndex (running badLast .dec 4 3 0 []).ibufByte 4 (0 + j)) ∧
    badIndex (running badLast .dec 4 3 0 []).ibufByte 4 (0 + 3) := by
  simp only [badIndex]; decide
theorem witness_DecFinishCompletes : (running twfu .dec 4 3 4 man).blk.running ∧ (running twfu .dec 4 3 4 man).blk.mode = .dec ∧
    (running twfu .dec 4 3 4 man).blk.len.toNat ≤ (running twfu .dec 4 3 4 man).blk.iptr.toNat ∧
    nextAgent (running twfu .dec 4 3 4 man) = some .core := by decide
theorem witness_HostWritesCsr : (∀ n ∈ [1#3, 7#3], (busyHost (.wcsr n 3#32)).hostActs (.wcsr n 3#32) [] ∧ n ≠ 0#3) ∧
    ((busyHost (.wcsr 0#3 3#32)).hostActs (.wcsr 0#3 3#32) [] ∧ (busyHost (.wcsr 0#3 3#32)).blk.busy = true) ∧
    ((idleHost (.wcsr 0#3 3#32)).hostActs (.wcsr 0#3 3#32) [] ∧ (idleHost (.wcsr 0#3 3#32)).blk.busy = false ∧ decode 3#32 = .ok (.enc 3#16)) := by
  decide
theorem witness_HostWritesCsr_illegal : (idleHost (.wcsr 0#3 0x00020000#32)).hostActs (.wcsr 0#3 0x00020000#32) [] ∧
    (idleHost (.wcsr 0#3 0x00020000#32)).blk.busy = false ∧ ∀ i, decode 0x00020000#32 ≠ .ok i := by
  refine ⟨by decide, by decide, fun i => ?_⟩
  rw [show decode 0x00020000#32 = .error (.reservedBits 1#15) from by decide]
  exact nofun
theorem witness_HostReadsCsr : ∀ n : BitVec 3, (busyHost (.rcsr n)).cfg.wf ∧ (busyHost (.rcsr n)).hostActs (.rcsr n) [] := by decide
theorem witness_StatusWordValues :
    ((loaded man).blk.tblrdy = true ∧ (loaded man).blk.bsywr = false ∧ (loaded man).blk.busy = false ∧ (loaded man).blk.done = false ∧
      (loaded man).blk.err = false ∧ (loaded man).blk.ecode = 0#3) ∧
    ((running man .enc 3 4 0 []).blk.tblrdy = true ∧ (running man .enc 3 4 0 []).blk.bsywr = false ∧ (running man .enc 3 4 0 []).blk.busy = true ∧
      (running man .enc 3 4 0 []).blk.done = false ∧ (running man .enc 3 4 0 []).blk.err = false ∧ (running man .enc 3 4 0 []).blk.ecode = 0#3) := by
  decide
theorem witness_StatusWordValues_done :
    ((loaded man).blk.complete.tblrdy = true ∧ (loaded man).blk.complete.bsywr = false ∧ (loaded man).blk.complete.busy = false ∧
      (loaded man).blk.complete.done = true ∧ (loaded man).blk.complete.err = false ∧ (loaded man).blk.complete.ecode = 0#3) ∧
    (((loaded man).blk.raise (.pad 3#16)).tblrdy = true ∧ ((loaded man).blk.raise (.pad 3#16)).bsywr = false ∧
      ((loaded man).blk.raise (.pad 3#16)).busy = false ∧ ((loaded man).blk.raise (.pad 3#16)).done = true ∧
      ((loaded man).blk.raise (.pad 3#16)).err = true) := by decide
theorem witness_HostWritesInputBuffer :
    ((busyHost (.wib 0#16 1#8)).hostActs (.wib 0#16 1#8) [] ∧ (busyHost (.wib 0#16 1#8)).blk.busy = true) ∧
    ((idleHost (.wib 79#16 1#8)).hostActs (.wib 79#16 1#8) [] ∧ (idleHost (.wib 79#16 1#8)).blk.busy = false ∧
      (79#16).toNat < (idleHost (.wib 79#16 1#8)).cfg.ibufSize) ∧
    ((idleHost (.wib 80#16 1#8)).hostActs (.wib 80#16 1#8) [] ∧ (idleHost (.wib 80#16 1#8)).blk.busy = false ∧
      (idleHost (.wib 80#16 1#8)).cfg.ibufSize ≤ (80#16).toNat) := by decide
theorem witness_HostReadsOutputBuffer :
    ((busyHost (.rob 80#16)).hostActs (.rob 80#16) [] ∧ (80#16).toNat < (busyHost (.rob 80#16)).cfg.obufSize) ∧
    ((busyHost (.rob 81#16)).hostActs (.rob 81#16) [] ∧ (busyHost (.rob 81#16)).cfg.obufSize ≤ (81#16).toNat) := by decide
theorem witness_PseudoOperationsExpand : twfu.length ≤ 65536 ∧ (3 ≤ 65536 ∧ 2 < 3) ∧ (busyHost .wait).hostActs .wait [] ∧
    (idleHost .wait).hostActs .wait [] := by decide
/-- An edge that carries ENC 3 and an IBUF write. -/
def bothAtOnce : EdgeIn := { rst := false, csrReq := true, csrWe := true, csrAddr := 0#3, csrWdata := 3#32, ibWe := true, ibAddr := 0#16, ibWdata := 1#8 }
/-- An edge that carries a read of CSR 1 and an IBUF write. -/
def readAtOnce : EdgeIn := { bothAtOnce with csrWe := false, csrAddr := 1#3 }
/-- An edge that carries an IBUF write alone. -/
def loadAlone (i : Half) : EdgeIn := { bothAtOnce with csrReq := false, ibAddr := i }
theorem witness_SameEdgeOrder : ({ bothAtOnce with rst := true } : EdgeIn).rst = true ∧ bothAtOnce.rst = false ∧ bothAtOnce.csrReq = true ∧
    bothAtOnce.csrWe = true ∧ bothAtOnce.csrAddr = 0#3 ∧ bothAtOnce.ibWe = true ∧ decode bothAtOnce.csrWdata = .ok (.enc 3#16) ∧
    (after (exec (.enc 3#16) (loaded man))).map (fun t => t.blk.busy) = some true := by decide
theorem witness_SameEdgeOrder_read : readAtOnce.rst = false ∧ readAtOnce.csrReq = true ∧ readAtOnce.csrWe = false ∧ readAtOnce.csrAddr = 1#3 ∧
    readAtOnce.ibWe = true ∧ (running man .enc 3 4 0 []).blk.busy = true := by decide
/-- The four cases of the IBUF write: none, while busy, at the last index, past it. -/
theorem witness_SameEdgeOrder_load : ({ bothAtOnce with ibWe := false } : EdgeIn).ibWe = false ∧
    ((loadAlone 0#16).rst = false ∧ (loadAlone 0#16).csrReq = false ∧ (loadAlone 0#16).ibWe = true ∧ (running man .enc 3 4 0 []).blk.busy = true) ∧
    ((loadAlone 79#16).ibWe = true ∧ (loaded man).blk.busy = false ∧ (loadAlone 79#16).ibAddr.toNat < (loaded man).cfg.ibufSize) ∧
    ((loadAlone 80#16).ibWe = true ∧ (loaded man).blk.busy = false ∧ (loaded man).cfg.ibufSize ≤ (loadAlone 80#16).ibAddr.toNat) := by decide
/-- The word read on an edge is the one before that edge's dropped write (rule R88). -/
theorem test_edge_reads_before_write : (after (clockEdge readAtOnce false (running man .enc 3 4 0 []))).map (fun t => (t.replies, readCsr 1#3 t)) =
    some ([.csr 1#3 0x00000009#32], 0x00000089#32) := by decide
theorem witness_StepKeepsInvariant : (running twfu .dec 4 3 0 []).Inv ∧ (after (step (running twfu .dec 4 3 0 []))).isSome = true :=
  ⟨inv_dec_start, by decide⟩
theorem witness_NoStepFaults : (loaded man).Inv ∧ (running badLast .dec 4 3 0 []).Inv := ⟨inv_loaded_man, inv_dec_badLast⟩
theorem witness_ParametersNeverChange : (after (step State.reset)).isSome = true := by decide
theorem witness_EachBufferHasOneWriter : (after (step State.reset)).isSome = true ∧ nextAgent State.reset = some .core ∧
    (after (step (idleHost (.wib 0#16 1#8)))).isSome = true ∧ nextAgent (idleHost (.wib 0#16 1#8)) = some .host := by decide
theorem witness_RunningCommandIgnoresHost : (busyHost (.wib 0#16 1#8)).blk.busy = true ∧ nextAgent (busyHost (.wib 0#16 1#8)) = some .host ∧
    (∀ rest, ¬ (busyHost (.wib 0#16 1#8)).hostActs .rst rest) ∧ (after (step (busyHost (.wib 0#16 1#8)))).isSome = true :=
  ⟨by decide, by decide, ⟨fun _ h => (by cases h.2), by decide⟩⟩
theorem witness_QuiescentMachineStays : enabledStep (loaded man).blk = none ∧ (loaded man).pending = [] := by decide
theorem witness_EitherAgentMayGoFirst : (busyHost .wait).pending = .wait :: [] ∧ enabledStep (busyHost .wait).blk ≠ none := by decide
theorem witness_EncCommandResult : (loaded man).Inv ∧ (loaded man).blk.idle ∧ (loaded man).pending = [] ∧
    (60#16).toNat ≤ (loaded man).cfg.encSize ∧ (0#16).toNat ≤ (loaded man).cfg.encSize := ⟨inv_loaded_man, by decide⟩
theorem witness_DecCommandResult : (loaded twfu).Inv ∧ (loaded twfu).blk.idle ∧ (loaded twfu).pending = [] ∧
    (4#16).toNat ≤ (loaded twfu).cfg.decSize ∧ wellFormedText (loaded twfu).ibufByte (4#16).toNat :=
  ⟨inv_loaded_twfu, by decide, by decide, by decide, by unfold wellFormedText; decide⟩
/-- A lowest bad index at the start and one at the end of the text. -/
theorem witness_DecCommandFailure_premises : (loaded badFirst).Inv ∧ (loaded badLast).Inv ∧ ∀ s ∈ [loaded badFirst, loaded badLast], s.blk.idle ∧ s.pending = [] ∧
    (4#16).toNat ≤ s.cfg.decSize ∧ (4#16).toNat % 4 = 0 ∧ 0 < (4#16).toNat ∧ 3 < (4#16).toNat := by
  refine ⟨inv_loaded_badFirst, inv_loaded_badLast, fun s h => ?_⟩
  simp only [List.mem_cons, List.not_mem_nil, or_false] at h
  rcases h with rfl | rfl <;> decide
theorem witness_DecCommandFailure_bad : badIndex (loaded badFirst).ibufByte (4#16).toNat 0 ∧
    (∀ i < 0, ¬ badIndex (loaded badFirst).ibufByte (4#16).toNat i) ∧ badIndex (loaded badLast).ibufByte (4#16).toNat 3 ∧
    (∀ i < 3, ¬ badIndex (loaded badLast).ibufByte (4#16).toNat i) := by
  simp only [badIndex]; decide
theorem witness_WellFormedIffNoBadIndex : 4 % 4 = 0 ∧ wellFormedText (text tqPad) 4 ∧ ¬ wellFormedText (text badLast) 4 := by
  simp only [wellFormedText]; decide
theorem witness_EncTextLaws : 3 < encLen 1 ∧ 1 % 3 = 1 ∧ 2 % 3 = 2 := by decide
theorem witness_EncodedTextDecodesToInput : 0 < 1 ∧ 59 < 60 := by decide
theorem witness_RoundTripOnMachine : (loaded tqPad).Inv ∧ (loaded tqPad).blk.idle ∧ (loaded tqPad).pending = [] ∧
    (1#16).toNat ≤ (loaded tqPad).cfg.encSize ∧ ∀ j < encLen (1#16).toNat, (loaded tqPad).ibufByte j = encText (text man) (1#16).toNat j :=
  ⟨inv_loaded_tqPad, by decide, by decide, by decide, by decide⟩
/-- "TQ==" and "Tf==", the ends of the range that rule R142 gives. -/
theorem witness_UnusedBitsAreIgnored_twoPads : text tqPad 0 = text tfPad 0 ∧ text tqPad 2 = pad ∧ text tqPad 3 = pad ∧ text tfPad 2 = pad ∧
    text tfPad 3 = pad ∧ (textSextet (text tqPad) 1).extractLsb' 4 2 = (textSextet (text tfPad) 1).extractLsb' 4 2 := by decide
/-- "TWE=" and "TWH=". -/
theorem witness_UnusedBitsAreIgnored_onePad : text twePad 0 = text twhPad 0 ∧ text twePad 1 = text twhPad 1 ∧ text twePad 2 ≠ pad ∧ text twePad 3 = pad ∧
    text twhPad 2 ≠ pad ∧ text twhPad 3 = pad ∧
    (textSextet (text twePad) 2).extractLsb' 2 4 = (textSextet (text twhPad) 2).extractLsb' 2 4 := by decide
theorem witness_UnusedBitsAreIgnored_texts : wellFormedText (text tqPad) 4 ∧ differsInUnusedBits (text tqPad) (text tfPad) 4 ∧
    wellFormedText (text twePad) 4 ∧ differsInUnusedBits (text twePad) (text twhPad) 4 :=
  ⟨by unfold wellFormedText; decide, by unfold differsInUnusedBits; decide, by unfold wellFormedText; decide, by unfold differsInUnusedBits; decide⟩
theorem witness_UnusedBitsAreIgnored_machine : (loaded tfPad).Inv ∧ (loaded tfPad).blk.idle ∧ (loaded tfPad).pending = [] ∧
    (4#16).toNat ≤ (loaded tfPad).cfg.decSize ∧ wellFormedText (text tqPad) (4#16).toNat ∧
    differsInUnusedBits (text tqPad) (loaded tfPad).ibufByte (4#16).toNat :=
  ⟨inv_loaded_tfPad, by decide, by decide, by decide, by unfold wellFormedText; decide, by unfold differsInUnusedBits; decide⟩
theorem witness_EncStepKeepsProgressOrCompletes : (running man .enc 3 4 3 twfu).Inv ∧ (running man .enc 3 4 3 twfu).EncProgress (text man) 3 ∧
    (∀ rest, ¬ (running man .enc 3 4 3 twfu).hostActs .rst rest) ∧ (after (step (running man .enc 3 4 3 twfu))).isSome = true :=
  ⟨inv_enc_end 2, ⟨by decide, by decide, by decide, by decide, by decide⟩, ⟨fun _ h => (by cases h.2), by decide⟩⟩
theorem witness_DecStepKeepsProgressOrEnds : (running twfu .dec 4 3 0 []).Inv ∧ (running twfu .dec 4 3 0 []).DecProgress (text twfu) 4 ∧
    (∀ rest, ¬ (running twfu .dec 4 3 0 []).hostActs .rst rest) ∧ (after (step (running twfu .dec 4 3 0 []))).isSome = true :=
  ⟨inv_dec_start, ⟨by decide, by decide, by decide, by decide, by decide, fun _ h => absurd h (Nat.not_lt_zero _),
    fun _ h => absurd h (Nat.not_lt_zero _)⟩, ⟨fun _ h => (by cases h.2), by decide⟩⟩
theorem witness_IssueStartsProgress : (loaded twfu).cfg.wf ∧ (loaded twfu).blk.idle ∧ (60#16).toNat ≤ (loaded twfu).cfg.encSize ∧
    (80#16).toNat ≤ (loaded twfu).cfg.decSize ∧ (80#16).toNat % 4 = 0 := by decide
theorem witness_EveryRunningCommandCompletes : (running twfu .dec 4 3 0 []).Inv ∧ (running twfu .dec 4 3 0 []).blk.running ∧
    (running twfu .dec 4 3 0 []).pending = [] := ⟨inv_dec_start, by decide⟩
/-- A host that polls, writes and issues while the commands run, and moves first. -/
def busyLines : List HostLine := [.wait, .wib 0#16 0x58#8, .wcsr 0#3 0x00010004#32]
theorem witness_EveryRunningCommandCompletes_host : (hosted (running man .enc 3 4 3 twfu) busyLines).Inv ∧
    (hosted (running man .enc 3 4 3 twfu) busyLines).blk.running ∧ .rst ∉ (hosted (running man .enc 3 4 3 twfu) busyLines).pending :=
  ⟨by apply inv_of rfl rfl <;> decide, by decide⟩
theorem witness_RunningCommandReachesItsResult_enc : (hosted (running man .enc 3 4 3 twfu) busyLines).Inv ∧
    .rst ∉ (hosted (running man .enc 3 4 3 twfu) busyLines).pending ∧
    (hosted (running man .enc 3 4 3 twfu) busyLines).EncProgress (text man) 3 :=
  ⟨by apply inv_of rfl rfl <;> decide, by decide, ⟨by decide, by decide, by decide, by decide, by decide⟩⟩
theorem witness_RunningCommandReachesItsResult_dec : (hosted (running twfu .dec 4 3 0 []) busyLines).Inv ∧
    .rst ∉ (hosted (running twfu .dec 4 3 0 []) busyLines).pending ∧ (hosted (running twfu .dec 4 3 0 []) busyLines).DecProgress (text twfu) 4 :=
  ⟨by apply inv_of rfl rfl <;> decide, by decide, ⟨by decide, by decide, by decide, by decide, by decide, fun _ h => absurd h (Nat.not_lt_zero _),
    fun _ h => absurd h (Nat.not_lt_zero _)⟩⟩

end Sys2Proof.Tests
end

section
/-! PROOF. The family of 10_state.md: the reset state (rule R38) and the output pins (rule R36). -/

namespace Sys2Proof.Machine

/-! ### The reset block -/

/-- Every entry of the inverse table is empty after RESET (rule R38). -/
@[simp] theorem ch2sx_reset_inv (c : Byte) : ch2sx Block.reset.inv c = { v := false, val := 0#6 } :=
  Vector.getElem_replicate _

/-- Until the table is built, INIT is the enabled step, whatever else the block holds (rule R176). -/
theorem enabledStep_of_tblrdy_false {b : Block} (h : b.tblrdy = false) : enabledStep b = some .init := by
  simp [enabledStep, h]

/-- Settles O1: the registers are fields of the reset block, the table has 256 empty entries, the buffers list no byte, and `TBLRDY` is 0. -/
theorem resetStateValues : Obligations.ResetStateValues := by
  unfold Obligations.ResetStateValues
  have hregs : State.reset.blk = Block.reset := rfl
  rw [hregs]
  refine ⟨rfl, rfl, rfl, rfl, rfl, rfl, rfl, rfl, rfl, rfl, rfl, rfl, ?table, ?buffers, ?enabled⟩
  case table => exact ch2sx_reset_inv
  case buffers => exact fun i => ⟨Memory.read?_nil i, Memory.read?_nil i⟩
  case enabled => exact enabledStep_of_tblrdy_false rfl

/-! ### The bits of STATUS that have a pin -/

/-- CSR 1 is STATUS (rule R27). -/
@[simp] theorem readCsr_one (s : State) : readCsr 1#3 s = statusWord s.blk := rfl

/-- Bit 0 of STATUS is `BUSY` (rule R27). -/
theorem statusWord_getLsbD_zero (b : Block) : (statusWord b).getLsbD 0 = b.busy := by
  simp only [statusWord, BitVec.getLsbD_append]
  simp

/-- Bit 1 of STATUS is `DONE` (rule R27). -/
theorem statusWord_getLsbD_one (b : Block) : (statusWord b).getLsbD 1 = b.done := by
  simp only [statusWord, BitVec.getLsbD_append]
  simp

/-- Bit 2 of STATUS is `ERR` (rule R27). -/
theorem statusWord_getLsbD_two (b : Block) : (statusWord b).getLsbD 2 = b.err := by
  simp only [statusWord, BitVec.getLsbD_append]
  simp

/-- Settles O39: the pins are the fields `BUSY`, `DONE` and `ERR`, which stand at bits 0, 1 and 2 of CSR 1. -/
theorem pinsMirrorStatus : Obligations.PinsMirrorStatus := by
  intro s
  rw [readCsr_one]
  exact ⟨(statusWord_getLsbD_zero s.blk).symm, (statusWord_getLsbD_one s.blk).symm, (statusWord_getLsbD_two s.blk).symm⟩

end Sys2Proof.Machine
end

section
/-! PROOF. The family of 30_encoding.md: what the decoder answers, by the bits of the word under the mask 0xFFFF0000 (rule R64). -/

namespace Sys2Proof

/-! ### The rows of the opcode map -/

/-- A word matches the row of ENC when every bit under the mask is 0 (rule R64). -/
theorem encRow_matches_iff (w : Word) : encRow.matches w = true ↔ w &&& 0xFFFF0000#32 = 0x00000000#32 := by
  simp [OpRow.matches, encRow]

/-- A word matches the row of DEC when, of the bits under the mask, only bit 16 is 1 (rule R64). -/
theorem decRow_matches_iff (w : Word) : decRow.matches w = true ↔ w &&& 0xFFFF0000#32 = 0x00010000#32 := by
  simp [OpRow.matches, decRow]

/-- The two rows differ in their pattern under one mask, so no word matches both (rule R64). -/
theorem not_encRow_matches_of_decRow_matches {w : Word} (h : decRow.matches w = true) : ¬ encRow.matches w = true := by
  rw [decRow_matches_iff] at h
  rw [encRow_matches_iff, h]
  decide

/-! ### What the decoder answers -/

theorem decode_of_encRow_matches {w : Word} (h : encRow.matches w = true) : decode w = .ok (.enc (wordLen w)) :=
  if_pos h

theorem decode_of_decRow_matches {w : Word} (h : decRow.matches w = true) : decode w = .ok (.dec (wordLen w)) := by
  rw [decode, if_neg (not_encRow_matches_of_decRow_matches h), if_pos h]

theorem decode_of_no_row_matches {w : Word} (henc : ¬ encRow.matches w = true) (hdec : ¬ decRow.matches w = true) :
    decode w = .error (.reservedBits (wordRsv w)) := by
  rw [decode, if_neg henc, if_neg hdec]

/-- Settles O11: the masks are those of the two rows, and the decoder has one answer for each row and one for the words of neither. -/
theorem decodeByMask : Obligations.DecodeByMask := by
  intro w
  simp only [ne_eq, ← encRow_matches_iff, ← decRow_matches_iff]
  refine ⟨?enc, ?dec, ?illegal⟩
  case enc => exact decode_of_encRow_matches
  case dec => exact decode_of_decRow_matches
  case illegal => exact decode_of_no_row_matches

end Sys2Proof
end

section
/-! PROOF. The family of 40_host_transactions.md: the five transactions of the host (rules R81 to R85), the issue of a command (rule R86) and the
writes that the busy core drops (rule R87). One equation per transaction and case, then one for the step that carries it out. -/

namespace Sys2Proof

/-! ### The decoder's answer by the fields of the word -/

/-- The mask of the opcode map covers every reserved bit (rules R60, R64). -/
theorem wordRsv_and_opMask (w : Word) : wordRsv (w &&& 0xFFFF0000#32) = wordRsv w := by
  have hmask : (0xFFFF0000#32).extractLsb' 17 15 = BitVec.allOnes 15 := by decide
  rw [wordRsv, BitVec.extractLsb'_and, hmask, BitVec.and_allOnes, wordRsv]

/-- A word is its three fields, the most significant first (rule R60). -/
theorem word_eq_fields (w : Word) : w = wordRsv w ++ BitVec.ofBool (wordModeBit w) ++ wordLen w := by
  refine BitVec.eq_of_getLsbD_eq fun i hi => ?_
  simp only [BitVec.getLsbD_append, wordLen, wordModeBit, wordRsv, BitVec.getLsbD_extractLsb']
  rcases Nat.lt_trichotomy i 16 with h | rfl | h
  · simp [h]
  · simp
  · have h1 : ¬ i < 16 := by omega
    have h2 : ¬ i - 16 < 1 := by omega
    have h3 : i - 16 - 1 < 15 := by omega
    have h4 : 17 + (i - 16 - 1) = i := by omega
    simp [h1, h2, h3, h4]

/-- Under the mask of the opcode map RSV and MODE stay and LEN goes (rule R64). -/
theorem and_opMask_eq (w : Word) : w &&& 0xFFFF0000#32 = wordRsv w ++ BitVec.ofBool (wordModeBit w) ++ 0#16 := by
  have hmask : 0xFFFF0000#32 = BitVec.allOnes 15 ++ BitVec.allOnes 1 ++ 0#16 := by decide
  rw [hmask]
  conv_lhs => rw [word_eq_fields w]
  rw [BitVec.and_append, BitVec.and_append, BitVec.and_allOnes, BitVec.and_allOnes, BitVec.and_zero]

/-- Both rows have RSV 0, so a word with a reserved bit matches neither (rules R63, R65). -/
theorem decode_of_reserved {w : Word} (h : wordRsv w ≠ 0#15) : decode w = .error (.reservedBits (wordRsv w)) := by
  have hne {p : Word} (hp : wordRsv p = 0#15) : ¬ w &&& 0xFFFF0000#32 = p := by
    rintro rfl
    exact h (by rw [← wordRsv_and_opMask, hp])
  apply decode_of_no_row_matches
  · rw [encRow_matches_iff]; exact hne (by decide)
  · rw [decRow_matches_iff]; exact hne (by decide)

theorem decode_of_legal_enc {w : Word} (h : wordRsv w = 0#15) (hm : wordModeBit w = false) : decode w = .ok (.enc (wordLen w)) := by
  apply decode_of_encRow_matches
  rw [encRow_matches_iff, and_opMask_eq, h, hm]
  decide

theorem decode_of_legal_dec {w : Word} (h : wordRsv w = 0#15) (hm : wordModeBit w = true) : decode w = .ok (.dec (wordLen w)) := by
  apply decode_of_decRow_matches
  rw [decRow_matches_iff, and_opMask_eq, h, hm]
  decide

end Sys2Proof

namespace Sys2Proof.Machine

/-! ### RESET (rule R85) -/

/-- Settles O2: `hreset` writes the reset block over whatever stood there, and only the model's counter moves with it. -/
theorem resetTakesEffectInAnyState : Obligations.ResetTakesEffectInAnyState := by
  intro s rest hacts
  exact ⟨hreset (s.popped rest), step_host hacts, rfl⟩

/-! ### Writes dropped while busy (rule R87) -/

theorem exec_busy (i : Instr) {s : State} (h : s.blk.busy = true) : exec i s = .next (s.setBlk s.blk.dropWrite) := by
  cases i with
  | enc len => exact if_pos h
  | dec len => exact if_pos h

theorem issueIllegal_busy (w : Word) {s : State} (h : s.blk.busy = true) :
    issueIllegal w s = .next (s.setBlk s.blk.dropWrite) := if_pos h

theorem hwcsr_zero_of_decode_ok {w : Word} {i : Instr} (h : decode w = .ok i) (s : State) : hwcsr 0#3 w s = exec i s := by
  simp [hwcsr, h]

theorem hwcsr_zero_of_decode_error {w : Word} {e : DecodeError} (h : decode w = .error e) (s : State) :
    hwcsr 0#3 w s = issueIllegal w s := by
  simp [hwcsr, h]

/-- CSR 1 to 7 take no write (rules R25, R81). -/
theorem hwcsr_of_ne_zero {n : BitVec 3} (h : n ≠ 0#3) (w : Word) (s : State) : hwcsr n w s = .next s := if_neg h

theorem hwcsr_zero_busy (w : Word) {s : State} (h : s.blk.busy = true) : hwcsr 0#3 w s = .next (s.setBlk s.blk.dropWrite) := by
  rcases hd : decode w with e | i
  · rw [hwcsr_zero_of_decode_error hd, issueIllegal_busy w h]
  · rw [hwcsr_zero_of_decode_ok hd, exec_busy i h]

theorem hwib_busy (i : Half) (b : Byte) {s : State} (h : s.blk.busy = true) : hwib i b s = s.setBlk s.blk.dropWrite := if_pos h

/-- A dropped write, on the state in which the host carries out its line. -/
theorem popped_dropWrite (s : State) (rest : List HostLine) :
    (s.popped rest).setBlk (s.popped rest).blk.dropWrite = { s.popped rest with blk := { s.blk with bsywr := true } } := by
  rw [State.popped_blk]
  rfl

theorem step_wcsr_zero_busy {s : State} {w : Word} {rest : List HostLine} (hacts : s.hostActs (.wcsr 0#3 w) rest)
    (hbusy : s.blk.busy = true) : step s = .next { s.popped rest with blk := { s.blk with bsywr := true } } := by
  rw [step_host hacts, ← popped_dropWrite]
  exact hwcsr_zero_busy w (by rwa [State.popped_blk])

theorem step_wib_busy {s : State} {i : Half} {b : Byte} {rest : List HostLine} (hacts : s.hostActs (.wib i b) rest)
    (hbusy : s.blk.busy = true) : step s = .next { s.popped rest with blk := { s.blk with bsywr := true } } := by
  rw [step_host hacts, ← popped_dropWrite]
  exact congrArg _ (hwib_busy i b (by rwa [State.popped_blk]))

/-- No core step writes `BSYWR` (rule R23). -/
theorem runStep_bsywr {k : CoreStep} {s t : State} (h : runStep k s = .next t) : t.blk.bsywr = s.blk.bsywr := by
  cases k with
  | init => obtain rfl := next_eq h; rfl
  | encGroup => obtain ⟨-, -, rfl⟩ := encGroup_next h; rfl
  | encFinish => obtain ⟨-, -, rfl⟩ := encFinish_next h; rfl
  | decGroup => obtain ⟨-, -, ⟨e, -, rfl⟩ | ⟨w, -, -, rfl⟩⟩ := decGroup_next h <;> rfl
  | decFinish => obtain rfl := next_eq h; rfl

/-- A line of the host keeps `BSYWR` at 1, unless it is RST or the issue of a command (rule R87). -/
theorem runLine_bsywr {l : HostLine} {s t : State} (h : runLine l s = .next t) (hw : s.blk.bsywr = true) :
    t.blk.bsywr = true ∨ l = .rst ∨ (s.blk.busy = false ∧ ∃ w, l = .wcsr 0#3 w) := by
  obtain ⟨-, ⟨-, -, hsame | ⟨-, hdrop⟩ | ⟨-, i, b, -, hbyte⟩ | ⟨hidle, hl, -⟩ | ⟨hidle, hl, -⟩ | ⟨hidle, hl, -⟩⟩ | ⟨hl, -⟩⟩ := runLine_blk h
  · exact .inl (by rw [hsame, hw])
  · exact .inl (by rw [hdrop, Block.dropWrite_bsywr])
  · exact .inl (by rw [hbyte, ← hw])
  · exact .inr (.inr ⟨hidle, hl⟩)
  · exact .inr (.inr ⟨hidle, hl⟩)
  · exact .inr (.inr ⟨hidle, hl⟩)
  · exact .inr (.inl hl)

/-- Settles O22: the two writes that the busy core drops, and `BSYWR` over each kind of step. -/
theorem hostWriteWhileBusyDropped : Obligations.HostWriteWhileBusyDropped := by
  refine ⟨?dropped, ?stays⟩
  case dropped =>
    rintro s l rest hacts hbusy (⟨w, rfl⟩ | ⟨i, b, rfl⟩)
    · exact step_wcsr_zero_busy hacts hbusy
    · exact step_wib_busy hacts hbusy
  case stays =>
    intro s t hw hstep
    obtain ⟨-, rfl⟩ | ⟨-, k, -, hk⟩ | ⟨l, rest, hacts, hl⟩ := step_cases hstep
    · exact .inl hw
    · exact .inl (by rw [runStep_bsywr hk, spendTurn_blk, hw])
    · rw [← State.popped_blk s rest] at hw
      obtain hkept | rfl | ⟨hidle, w, rfl⟩ := runLine_bsywr hl hw
      · exact .inl hkept
      · exact .inr (.inl ⟨rest, hacts⟩)
      · exact .inr (.inr ⟨w, rest, hacts, by rwa [State.popped_blk] at hidle⟩)

/-! ### The issue of a command while idle (rule R86) -/

theorem exec_enc_idle (len : Half) {s : State} (hidle : s.blk.busy = false) :
    exec (.enc len) s = .next (s.setBlk (if s.cfg.encSize < len.toNat then (s.blk.latch .enc len).raise .len
      else (s.blk.latch .enc len).accept (encLen len.toNat))) := by
  rw [exec, execEnc, hidle, if_neg Bool.false_ne_true]
  split_ifs <;> rfl

theorem exec_dec_idle (len : Half) {s : State} (hidle : s.blk.busy = false) :
    exec (.dec len) s = .next (s.setBlk (if s.cfg.decSize < len.toNat then (s.blk.latch .dec len).raise .len
      else if len.toNat % 4 ≠ 0 then (s.blk.latch .dec len).raise .fmt
      else (s.blk.latch .dec len).accept (decLen s.ibufByte len.toNat))) := by
  rw [exec, execDec, hidle, if_neg Bool.false_ne_true]
  split_ifs <;> rfl

/-- The block with a command word latched and the results of the command before it cleared (first half of rule R86). -/
def Block.latchWord (b : Block) (w : Word) : Block := b.latch (modeOfBit (wordModeBit w)) (wordLen w)

theorem issueIllegal_idle (w : Word) {s : State} (hidle : s.blk.busy = false) :
    issueIllegal w s = .next (s.setBlk ((s.blk.latchWord w).raise .cmd)) := by
  rw [issueIllegal, hidle, if_neg Bool.false_ne_true, Block.latchWord]

/-- The error that the validation of a command word finds, in the order of its tests (rule R86). -/
def issueError (c : Config) (w : Word) : Option CmdError :=
  if wordRsv w ≠ 0#15 then some .cmd
  else if wordModeBit w = false ∧ c.encSize < (wordLen w).toNat then some .len
  else if wordModeBit w = true ∧ c.decSize < (wordLen w).toNat then some .len
  else if wordModeBit w = true ∧ (wordLen w).toNat % 4 ≠ 0 then some .fmt
  else none

/-- The output length of an accepted command, by its mode (rule R86). -/
def State.issueOlen (s : State) (w : Word) : Nat :=
  if wordModeBit w then decLen s.ibufByte (wordLen w).toNat else encLen (wordLen w).toNat

/-- The block after the issue of a word while idle: latched, then failed with the error found, or accepted (rule R86). -/
def State.issued (s : State) (w : Word) : Block :=
  match issueError s.cfg w with
  | some e => (s.blk.latchWord w).raise e
  | none => (s.blk.latchWord w).accept (s.issueOlen w)

theorem issued_of_error {s : State} {w : Word} {e : CmdError} (h : issueError s.cfg w = some e) :
    s.issued w = (s.blk.latchWord w).raise e := by rw [State.issued, h]

theorem issued_of_valid {s : State} {w : Word} (h : issueError s.cfg w = none) :
    s.issued w = (s.blk.latchWord w).accept (s.issueOlen w) := by rw [State.issued, h]

theorem issueError_of_reserved (c : Config) {w : Word} (h : wordRsv w ≠ 0#15) : issueError c w = some .cmd := if_pos h

theorem issueError_of_legal_enc (c : Config) {w : Word} (h : wordRsv w = 0#15) (hm : wordModeBit w = false) :
    issueError c w = if c.encSize < (wordLen w).toNat then some .len else none := by
  simp [issueError, h, hm]

theorem issueError_of_legal_dec (c : Config) {w : Word} (h : wordRsv w = 0#15) (hm : wordModeBit w = true) :
    issueError c w = if c.decSize < (wordLen w).toNat then some .len
      else if (wordLen w).toNat % 4 ≠ 0 then some .fmt else none := by
  simp [issueError, h, hm]

/-- The block that `exec` makes of the idle one is the issued block, for a legal ENC word. -/
theorem issued_of_legal_enc {s : State} {w : Word} (h : wordRsv w = 0#15) (hm : wordModeBit w = false) :
    s.issued w = if s.cfg.encSize < (wordLen w).toNat then (s.blk.latch .enc (wordLen w)).raise .len
      else (s.blk.latch .enc (wordLen w)).accept (encLen (wordLen w).toNat) := by
  have hmode : modeOfBit false = .enc := rfl
  rw [State.issued, issueError_of_legal_enc s.cfg h hm, State.issueOlen, Block.latchWord, hm, hmode, if_neg Bool.false_ne_true]
  split_ifs <;> rfl

/-- The same for a legal DEC word. -/
theorem issued_of_legal_dec {s : State} {w : Word} (h : wordRsv w = 0#15) (hm : wordModeBit w = true) :
    s.issued w = if s.cfg.decSize < (wordLen w).toNat then (s.blk.latch .dec (wordLen w)).raise .len
      else if (wordLen w).toNat % 4 ≠ 0 then (s.blk.latch .dec (wordLen w)).raise .fmt
      else (s.blk.latch .dec (wordLen w)).accept (decLen s.ibufByte (wordLen w).toNat) := by
  have hmode : modeOfBit true = .dec := rfl
  rw [State.issued, issueError_of_legal_dec s.cfg h hm, State.issueOlen, Block.latchWord, hm, hmode, if_pos rfl]
  split_ifs <;> rfl

/-- While idle a write to CSR 0 is the issue, for every word (rules R81, R86). -/
theorem hwcsr_zero_idle (w : Word) {s : State} (hidle : s.blk.busy = false) : hwcsr 0#3 w s = .next (s.setBlk (s.issued w)) := by
  by_cases hr : wordRsv w = 0#15
  · cases hm : wordModeBit w with
    | false => rw [hwcsr_zero_of_decode_ok (decode_of_legal_enc hr hm), exec_enc_idle _ hidle, issued_of_legal_enc hr hm]
    | true => rw [hwcsr_zero_of_decode_ok (decode_of_legal_dec hr hm), exec_dec_idle _ hidle, issued_of_legal_dec hr hm]
  · rw [hwcsr_zero_of_decode_error (decode_of_reserved hr), issueIllegal_idle w hidle, issued_of_error (issueError_of_reserved s.cfg hr)]

/-- The errors of validation carry no index: `ERRIDX` stays as it was (rule R166). -/
theorem issueError_erridx {c : Config} {w : Word} {e : CmdError} (h : issueError c w = some e) (old : Half) : e.erridx old = old := by
  unfold issueError at h
  split_ifs at h <;> obtain rfl := Option.some.inj h <;> rfl

/-- Whatever validation finds, the issue differs from the latch in the outcome alone: `OLEN` and the four status fields. -/
theorem issued_eq_latchWord (s : State) (w : Word) : s.issued w = { s.blk.latchWord w with
    olen := (s.issued w).olen, busy := (s.issued w).busy, done := (s.issued w).done, err := (s.issued w).err, ecode := (s.issued w).ecode } := by
  cases h : issueError s.cfg w with
  | none => rw [issued_of_valid h]; rfl
  | some e => rw [issued_of_error h, Block.raise, issueError_erridx h]

/-- A length that validation lets through gives an output length within the buffer (rule R14). -/
theorem issueOlen_le_decSize {s : State} {w : Word} (h : issueError s.cfg w = none) : s.issueOlen w ≤ s.cfg.decSize := by
  unfold issueError at h
  split_ifs at h with hr henc hdec hfmt
  cases hm : wordModeBit w with
  | false =>
    rw [State.issueOlen, hm, if_neg Bool.false_ne_true]
    exact encLen_le_decSize (Nat.not_lt.mp fun hlong => henc ⟨hm, hlong⟩)
  | true =>
    rw [State.issueOlen, hm, if_pos rfl]
    exact decLen_le_decSize (Nat.not_lt.mp fun hlong => hdec ⟨hm, hlong⟩)

theorem Block.raise_failedAtIssue (b : Block) (e : CmdError) : (b.raise e).failedAtIssue e.code := ⟨rfl, rfl, rfl, rfl, rfl⟩

theorem issued_failedAtIssue {s : State} {w : Word} {e : CmdError} (h : issueError s.cfg w = some e) :
    (s.issued w).failedAtIssue e.code := by
  rw [issued_of_error h]
  exact Block.raise_failedAtIssue _ e

/-- A valid command runs, with its output length in `OLEN` (rule R86). -/
theorem issued_accepted {s : State} {w : Word} (hcfg : s.cfg.wf) (h : issueError s.cfg w = none) :
    (s.issued w).busy = true ∧ (s.issued w).done = false ∧ (s.issued w).err = false ∧ (s.issued w).ecode = 0#3 ∧
      (s.issued w).olen.toNat = s.issueOlen w := by
  have hfits : s.issueOlen w < 2 ^ 16 := by
    have hlen := issueOlen_le_decSize h
    have hsize := decSize_le_of_wf hcfg
    omega
  rw [issued_of_valid h]
  exact ⟨rfl, rfl, rfl, rfl, by rw [Block.accept_olen, BitVec.toNat_ofNat, Nat.mod_eq_of_lt hfits]⟩

/-- The outcome of the issue, by the tests of rule R86 in their order. -/
theorem issued_outcome {s : State} {w : Word} (hcfg : s.cfg.wf) :
    if wordRsv w ≠ 0#15 then (s.issued w).failedAtIssue 1#3
    else if wordModeBit w = false ∧ s.cfg.encSize < (wordLen w).toNat then (s.issued w).failedAtIssue 2#3
    else if wordModeBit w = true ∧ s.cfg.decSize < (wordLen w).toNat then (s.issued w).failedAtIssue 2#3
    else if wordModeBit w = true ∧ (wordLen w).toNat % 4 ≠ 0 then (s.issued w).failedAtIssue 3#3
    else (s.issued w).busy = true ∧ (s.issued w).done = false ∧ (s.issued w).err = false ∧ (s.issued w).ecode = 0#3 ∧
      (s.issued w).olen.toNat = s.issueOlen w := by
  split_ifs with hr henc hdec hfmt
  · exact issued_failedAtIssue (e := .cmd) (by rw [issueError, if_pos hr])
  · exact issued_failedAtIssue (e := .len) (by rw [issueError, if_neg hr, if_pos henc])
  · exact issued_failedAtIssue (e := .len) (by rw [issueError, if_neg hr, if_neg henc, if_pos hdec])
  · exact issued_failedAtIssue (e := .fmt) (by rw [issueError, if_neg hr, if_neg henc, if_neg hdec, if_pos hfmt])
  · exact issued_accepted hcfg (by rw [issueError, if_neg hr, if_neg henc, if_neg hdec, if_neg hfmt])

/-- The issue reads the parameters, the block and the free bytes alone, so taking the host's line does not change it. -/
theorem issued_popped (s : State) (w : Word) (rest : List HostLine) : (s.popped rest).issued w = s.issued w := by
  have hbytes : (s.popped rest).ibufByte = s.ibufByte := State.ibufByte_congr (by rw [State.popped_blk]) (State.popped_epoch s rest)
  simp only [State.issued, State.issueOlen, State.popped_cfg, State.popped_blk, hbytes]

theorem step_wcsr_zero_idle {s : State} {w : Word} {rest : List HostLine} (hacts : s.hostActs (.wcsr 0#3 w) rest)
    (hidle : s.blk.busy = false) : step s = .next { s.popped rest with blk := s.issued w } := by
  rw [step_host hacts, ← issued_popped s w rest]
  exact hwcsr_zero_idle w (by rwa [State.popped_blk])

/-- Settles O18: the next block is the issued one; its registers are those of the latch, and its outcome follows the tests in their order. -/
theorem issueLatchesClearsAndValidates : Obligations.IssueLatchesClearsAndValidates := by
  intro s w rest hcfg hacts hidle
  have hlatch := issued_eq_latchWord s w
  exact ⟨_, step_wcsr_zero_idle hacts hidle, rfl, congrArg Block.mode hlatch, congrArg Block.len hlatch, congrArg Block.bsywr hlatch,
    congrArg Block.erridx hlatch, congrArg Block.iptr hlatch, congrArg Block.optr hlatch, (congrArg Block.ibuf hlatch :),
    (congrArg Block.obuf hlatch :), (congrArg Block.inv hlatch :), (congrArg Block.tblrdy hlatch :), issued_outcome hcfg⟩

/-! ### HWCSR (rule R81) -/

/-- Settles O32: the number of the CSR, then `BUSY`, then the decoder decide what a write to a CSR does. -/
theorem hostWritesCsr : Obligations.HostWritesCsr := by
  intro s n w rest hacts
  refine ⟨?other, ?busy, ?issue, ?illegal⟩
  case other =>
    intro hn
    rw [step_host hacts]
    exact hwcsr_of_ne_zero hn w _
  case busy =>
    rintro rfl hbusy
    exact step_wcsr_zero_busy hacts hbusy
  case issue =>
    rintro rfl - i hi
    rw [step_host hacts]
    exact hwcsr_zero_of_decode_ok hi _
  case illegal =>
    rintro rfl hidle hno
    cases hd : decode w with
    | ok i => exact absurd hd (hno i)
    | error e =>
      have hissue := (hwcsr_zero_of_decode_error hd (s.popped rest)).trans (issueIllegal_idle w (by rwa [State.popped_blk]))
      exact ⟨_, (step_host hacts).trans hissue, Block.raise_failedAtIssue _ .cmd⟩

/-! ### HRCSR: the fields of the words (rules R26 to R31, R82) -/

theorem Mode.bit_eq (m : Mode) : m.bit = BitVec.ofBool (decide (m = .dec)) := by cases m <;> rfl

/-- The word of CMD: nothing above the MODE bit, MODE, LEN (rule R26). -/
theorem cmdWord_fields (b : Block) : (cmdWord b).extractLsb' 17 15 = 0#15 ∧ (cmdWord b).getLsbD 16 = decide (b.mode = .dec) ∧
    (cmdWord b).extractLsb' 0 16 = b.len := by
  rw [cmdWord, Mode.bit_eq]
  refine ⟨?reserved, ?mode, BitVec.extractLsb'_append_eq_right⟩
  case reserved =>
    refine BitVec.eq_of_getLsbD_eq fun i hi => ?_
    have hlen : ¬ 17 + i < 16 := by omega
    have hmode : 17 + i - 16 ≠ 0 := by omega
    simp only [BitVec.getLsbD_extractLsb', BitVec.getLsbD_append]
    simp [hlen, hmode]
  case mode =>
    simp only [BitVec.getLsbD_append]
    simp

/-- Bit 7 of STATUS is `BSYWR` (rule R27). -/
theorem statusWord_getLsbD_seven (b : Block) : (statusWord b).getLsbD 7 = b.bsywr := by
  simp only [statusWord, BitVec.getLsbD_append]
  simp

/-- Bit 3 of STATUS is `TBLRDY` (rule R27). -/
theorem statusWord_getLsbD_three (b : Block) : (statusWord b).getLsbD 3 = b.tblrdy := by
  simp only [statusWord, BitVec.getLsbD_append]
  simp

/-- Bits 6:4 of STATUS are `ECODE` (rule R27). -/
theorem statusWord_ecode (b : Block) : (statusWord b).extractLsb' 4 3 = b.ecode := by
  refine BitVec.eq_of_getLsbD_eq fun i hi => ?_
  simp only [statusWord, BitVec.getLsbD_extractLsb', BitVec.getLsbD_append]
  simp [hi]

/-- Nothing stands above bit 7 of STATUS (rule R27). -/
theorem statusWord_reserved (b : Block) : (statusWord b).extractLsb' 8 24 = 0#24 := by
  refine BitVec.eq_of_getLsbD_eq fun i hi => ?_
  have hecode : ¬ 4 + i < 3 := by omega
  have hbsywr : 4 + i - 3 ≠ 0 := by omega
  simp only [statusWord, BitVec.getLsbD_extractLsb', BitVec.getLsbD_append]
  simp [hecode, hbsywr]

/-- Both capacities fit their halves of CAP (rule R30). -/
theorem capWord_toNat {c : Config} (h : c.wf) : (capWord c).toNat = c.decSize * 2 ^ 16 + c.encSize := by
  have hdec := decSize_le_of_wf h
  obtain ⟨-, henc⟩ := h
  rw [capWord, BitVec.toNat_append, BitVec.toNat_ofNat, BitVec.toNat_ofNat, Nat.mod_eq_of_lt (by omega), Nat.mod_eq_of_lt (by omega),
    ← Nat.shiftLeft_add_eq_or_of_lt (by omega), Nat.shiftLeft_eq]

@[simp] theorem readCsr_zero (s : State) : readCsr 0#3 s = cmdWord s.blk := rfl
@[simp] theorem readCsr_two (s : State) : readCsr 2#3 s = s.blk.olen.setWidth 32 := rfl
@[simp] theorem readCsr_three (s : State) : readCsr 3#3 s = s.blk.erridx.setWidth 32 := rfl
@[simp] theorem readCsr_four (s : State) : readCsr 4#3 s = capWord s.cfg := rfl

/-- CSR 5 to 7 read as 0 (rule R31). -/
theorem readCsr_of_five_le {n : BitVec 3} (h : 5#3 ≤ n) (s : State) : readCsr n s = 0#32 := by
  have hne : n ≠ 0#3 ∧ n ≠ 1#3 ∧ n ≠ 2#3 ∧ n ≠ 3#3 ∧ n ≠ 4#3 := by revert n; decide
  simp [readCsr, hne]

theorem readCsr_popped (n : BitVec 3) (s : State) (rest : List HostLine) : readCsr n (s.popped rest) = readCsr n s := by
  simp only [readCsr, State.popped_blk, State.popped_cfg]

theorem step_rcsr {s : State} {n : BitVec 3} {rest : List HostLine} (hacts : s.hostActs (.rcsr n) rest) :
    step s = .next { s.popped rest with replies := .csr n (readCsr n s) :: s.replies } := by
  rw [step_host hacts, ← readCsr_popped n s rest, ← State.popped_replies s rest]
  rfl

/-- Settles O33: the reply is the word of the layout, and its fields are read off CSR by CSR. -/
theorem hostReadsCsr : Obligations.HostReadsCsr := by
  intro s n rest hcfg hacts
  refine ⟨readCsr n s, step_rcsr hacts, ?cmd, ?status, ?olen, ?erridx, ?cap, ?reserved⟩
  case cmd => rintro rfl; rw [readCsr_zero]; exact cmdWord_fields s.blk
  case status =>
    rintro rfl
    rw [readCsr_one]
    exact ⟨statusWord_reserved s.blk, statusWord_getLsbD_seven s.blk, statusWord_ecode s.blk, statusWord_getLsbD_three s.blk,
      statusWord_getLsbD_two s.blk, statusWord_getLsbD_one s.blk, statusWord_getLsbD_zero s.blk⟩
  case olen => rintro rfl; rw [readCsr_two, BitVec.toNat_setWidth_of_le (by decide)]
  case erridx => rintro rfl; rw [readCsr_three, BitVec.toNat_setWidth_of_le (by decide)]
  case cap => rintro rfl; rw [readCsr_four]; exact capWord_toNat hcfg
  case reserved => exact fun hn => readCsr_of_five_le hn s

/-! ### HWIB (rule R83) -/

theorem hwib_idle_inside {s : State} {i : Half} (b : Byte) (hidle : s.blk.busy = false) (hi : i.toNat < s.cfg.ibufSize) :
    hwib i b s = s.setBlk { s.blk with ibuf := Memory.write s.blk.ibuf i.toNat b } := by
  rw [hwib, hidle, if_neg Bool.false_ne_true, if_pos hi]

theorem hwib_idle_outside {s : State} {i : Half} (b : Byte) (hidle : s.blk.busy = false) (hi : s.cfg.ibufSize ≤ i.toNat) :
    hwib i b s = s := by
  rw [hwib, hidle, if_neg Bool.false_ne_true, if_neg (Nat.not_lt.mpr hi)]

theorem step_wib_inside {s : State} {i : Half} {b : Byte} {rest : List HostLine} (hacts : s.hostActs (.wib i b) rest)
    (hidle : s.blk.busy = false) (hi : i.toNat < s.cfg.ibufSize) :
    step s = .next { s.popped rest with blk := { s.blk with ibuf := Memory.write s.blk.ibuf i.toNat b } } := by
  rw [step_host hacts, ← State.popped_blk s rest]
  exact congrArg _ (hwib_idle_inside b (by rwa [State.popped_blk]) (by rwa [State.popped_cfg]))

/-- Settles O35: the busy core drops the write; the idle one takes it inside the buffer and ignores it outside. -/
theorem hostWritesInputBuffer : Obligations.HostWritesInputBuffer := by
  intro s i b rest hacts
  refine ⟨step_wib_busy hacts, ?inside, ?outside⟩
  case inside =>
    intro hidle hi
    refine ⟨_, step_wib_inside hacts hidle hi, rfl, ?written, fun x hx => Memory.read?_write_other _ b hx⟩
    case written => rw [State.ibufByte, Memory.read?_write_same, Option.getD_some]
  case outside =>
    intro hidle hi
    rw [step_host hacts]
    exact congrArg _ (hwib_idle_outside b (by rwa [State.popped_blk]) (by rwa [State.popped_cfg]))

/-! ### HROB (rule R84) -/

theorem readObuf_inside {s : State} {i : Half} (h : i.toNat < s.cfg.obufSize) : readObuf i s = s.obufByte i.toNat := if_pos h

theorem readObuf_outside {s : State} {i : Half} (h : s.cfg.obufSize ≤ i.toNat) : readObuf i s = 0x00#8 := if_neg (Nat.not_lt.mpr h)

theorem readObuf_popped (i : Half) (s : State) (rest : List HostLine) : readObuf i (s.popped rest) = readObuf i s := by
  have hbytes : (s.popped rest).obufByte = s.obufByte := State.obufByte_congr (by rw [State.popped_blk]) (State.popped_epoch s rest)
  rw [readObuf, readObuf, State.popped_cfg, hbytes]

theorem step_rob {s : State} {i : Half} {rest : List HostLine} (hacts : s.hostActs (.rob i) rest) :
    step s = .next { s.popped rest with replies := .ob i (readObuf i s) :: s.replies } := by
  rw [step_host hacts, ← readObuf_popped i s rest, ← State.popped_replies s rest]
  rfl

/-- Settles O36: the reply is `readObuf`, inside the buffer and beyond it. -/
theorem hostReadsOutputBuffer : Obligations.HostReadsOutputBuffer := by
  intro s i rest hacts
  refine ⟨fun hi => ?_, fun hi => ?_⟩
  · rw [step_rob hacts, readObuf_inside hi]
  · rw [step_rob hacts, readObuf_outside hi]

end Sys2Proof.Machine
end

section
/-! PROOF. The family of 41_datapath_primitives.md: a group value and its slices as numbers (rules R106, R107, R113), the length laws
(rules R109, R114), the pad count (rule R102) and the legal positions of a pad (rule R115). -/

namespace Sys2Proof.Machine

/-! ### Group values as numbers -/

/-- Concatenation as arithmetic: the left part counts in steps of the right part's range. -/
theorem toNat_append_eq_mul_add {m n : Nat} (x : BitVec m) (y : BitVec n) : (x ++ y).toNat = x.toNat * 2 ^ n + y.toNat := by
  rw [BitVec.toNat_append, ← Nat.shiftLeft_add_eq_or_of_lt y.isLt, Nat.shiftLeft_eq]

theorem pack3_toNat (a b c : Byte) : (pack3 a b c).toNat = a.toNat * 2 ^ 16 + b.toNat * 2 ^ 8 + c.toNat := by
  rw [pack3, toNat_append_eq_mul_add, toNat_append_eq_mul_add]
  omega

theorem join4_toNat (s0 s1 s2 s3 : Sextet) :
    (join4 s0 s1 s2 s3).toNat = s0.toNat * 2 ^ 18 + s1.toNat * 2 ^ 12 + s2.toNat * 2 ^ 6 + s3.toNat := by
  rw [join4, toNat_append_eq_mul_add, toNat_append_eq_mul_add, toNat_append_eq_mul_add]
  omega

theorem sxt_toNat (w : Group) (k : Fin 4) : (sxt w k).toNat = (w.toNat >>> (18 - 6 * k.val)) &&& 0x3F := by
  rw [sxt, BitVec.extractLsb'_toNat]
  exact (Nat.and_two_pow_sub_one_eq_mod _ 6).symm

theorem oct_toNat (w : Group) (j : Fin 3) : (oct w j).toNat = (w.toNat >>> (16 - 8 * j.val)) &&& 0xFF := by
  rw [oct, BitVec.extractLsb'_toNat]
  exact (Nat.and_two_pow_sub_one_eq_mod _ 8).symm

/-- Settles O7: a group value is a concatenation, whose number is a sum of shifted parts, and a slice is a shift under a mask. -/
theorem groupSlicesByFormula : Obligations.GroupSlicesByFormula := ⟨pack3_toNat, sxt_toNat, join4_toNat, oct_toNat⟩

/-! ### The encode length law and the pad count -/

theorem encLen_mod_four (n : Nat) : encLen n % 4 = 0 := Nat.mul_mod_right 4 _

/-- An output length of ENC that the largest configuration allows is below 2 ^ 16, with every intermediate value (rule R109). -/
theorem encLen_intermediates_le {c : Config} {n : Nat} (hc : c.wf) (hn : n ≤ c.encSize) :
    n + 2 ≤ 49151 ∧ (n + 2) / 3 ≤ 16383 ∧ encLen n ≤ 65532 := by
  have hsum : n + 2 ≤ 49151 := Nat.add_le_add_right (hn.trans hc.2) 2
  exact ⟨hsum, Nat.div_le_div_right hsum, (encLen_le_decSize hn).trans (decSize_le_of_wf hc)⟩

theorem padTab_toNat : padTab.toList.map BitVec.toNat = [0, 2, 1] := rfl

/-- The pad count by the residue of the length: it completes the last group of three bytes (rule R102). -/
theorem padCount_of_mod (n : Nat) : (n % 3 = 0 → padCount n = 0) ∧ (n % 3 = 1 → padCount n = 2) ∧ (n % 3 = 2 → padCount n = 1) := by
  have hfill := padCount_add n
  omega

/-- Settles O9: the law is the definition of `encLen`; the bounds come from the largest configuration, the pads from the last group. -/
theorem encodeLengthAndPadTable : Obligations.EncodeLengthAndPadTable :=
  ⟨fun n => ⟨rfl, rfl, encLen_mod_four n⟩, rfl, rfl, rfl, rfl, rfl, rfl, fun _ => rfl, fun _ _ => encLen_intermediates_le,
    padTab_toNat, padCount_of_mod⟩

/-! ### The pads at the end of a text and the decode length law -/

section Pads

variable {t : Text} {n : Nat}

@[simp] theorem decPad_zero (t : Text) : decPad t 0 = 0 := rfl

theorem decPad_of_last_ne_pad (hn : 0 < n) (hlast : t (n - 1) ≠ pad) : decPad t n = 0 := by
  rw [decPad, if_neg hn.ne', if_pos hlast]

theorem decPad_of_last_eq_pad (hn : 0 < n) (hlast : t (n - 1) = pad) : decPad t n = if t (n - 2) ≠ pad then 1 else 2 := by
  rw [decPad, if_neg hn.ne', if_neg (not_not_intro hlast)]

/-- A text of whole groups has room for its pads: the subtraction of the decode length law does not underflow (rule R114). -/
theorem decPad_le_groups (hn : n % 4 = 0) : decPad t n ≤ 3 * (n / 4) := by
  rcases Nat.eq_zero_or_pos n with rfl | hpos
  · exact Nat.le_of_eq (decPad_zero t)
  · have hle := decPad_le t n
    omega

theorem decLen_add_decPad (hn : n % 4 = 0) : decLen t n + decPad t n = 3 * (n / 4) := Nat.sub_add_cancel (decPad_le_groups hn)

/-- The two legal positions of a pad, for an index of a text of whole groups (rule R115). -/
theorem padLegal_iff {i : Nat} (hn : n % 4 = 0) (hi : i < n) :
    padLegal t n i = true ↔ (i = n - 1 ∨ (i = n - 2 ∧ t (n - 1) = pad)) := by
  have hlast : i + 1 = n ↔ i = n - 1 := by omega
  have hprev : i + 2 = n ↔ i = n - 2 := by omega
  simp only [padLegal, Bool.or_eq_true, Bool.and_eq_true, beq_iff_eq, hlast, hprev]

end Pads

/-- Settles O10: `decPad` case by case, the length law from the room for the pads, and the legal positions as indices. -/
theorem decodeLengthAndPadPositions : Obligations.DecodeLengthAndPadPositions := by
  intro t n hn
  refine ⟨?empty, decPad_of_last_ne_pad, ?one, ?two, decLen_add_decPad hn, fun i => padLegal_iff hn⟩
  case empty => rintro rfl; exact decPad_zero t
  case one => exact fun hpos hlast hprev => (decPad_of_last_eq_pad hpos hlast).trans (if_pos hprev)
  case two => exact fun hpos hlast hprev => (decPad_of_last_eq_pad hpos hlast).trans (if_neg (not_not_intro hprev))

end Sys2Proof.Machine
end

section
/-! PROOF. The family of 42_encode.md: the two core steps of a running ENC, ENC_GROUP (rule R121) and ENC_FINISH (rule R122), in a state of the invariant. -/

namespace Sys2Proof.Machine

/-! ### What a written OBUF reads as -/

theorem State.obufByte_of_read? {s : State} {x : Nat} {b : Byte} (h : Memory.read? s.blk.obuf x = some b) : s.obufByte x = b := by
  rw [State.obufByte, h, Option.getD_some]

/-- The bytes of a vector, written at rising indices, stand each at its own place. -/
theorem Memory.read?_writeList_vector {n : Nat} (m : Memory) (a : Nat) (v : Vector Byte n) (k : Fin n) :
    Memory.read? (Memory.writeList m a v.toList) (a + k.val) = some (v.get k) := by
  have hlen : v.toList.length = n := Vector.length_toList
  rw [Memory.read?_writeList, if_pos (by omega), Nat.add_sub_cancel_left, List.getElem?_eq_getElem (by omega), Vector.getElem_toList,
    Vector.get_eq_getElem]

/-- The end of an encoded text: `TERM` at `n`, pads at the `p` indices before it, and nothing else written (rule R122). -/
theorem read?_padAndTerm (c : Config) (m : Memory) (n x : Nat) {p : Nat} (hp : p ≤ 2) :
    Memory.read? (padAndTerm c m n p) x = if x = n then some c.term else if x < n ∧ n ≤ x + p then some pad else Memory.read? m x := by
  rw [padAndTerm, Memory.read?_write]
  refine ite_congr rfl (fun _ => rfl) (fun hx => ?_)
  obtain rfl | rfl | rfl : p = 0 ∨ p = 1 ∨ p = 2 := by omega
  · exact (if_neg (by omega)).symm
  · have hpad : x = n - 1 ↔ x < n ∧ n ≤ x + 1 := by omega
    simp [Memory.read?_write, ← hpad]
  · have hpads : x = n - 2 ∨ x = n - 1 ↔ x < n ∧ n ≤ x + 2 := by omega
    simp [Memory.read?_write, ← hpads, ite_or]

/-! ### Which step of an ENC is enabled, and the range of its accesses -/

theorem enabledStep_encGroup {b : Block} (hrun : b.running) (hmode : b.mode = .enc) (hlt : b.iptr.toNat < b.len.toNat) :
    enabledStep b = some .encGroup := by
  simp [enabledStep, hrun.1, hrun.2, hmode, hlt]

theorem enabledStep_encFinish {b : Block} (hrun : b.running) (hmode : b.mode = .enc) (hle : b.len.toNat ≤ b.iptr.toNat) :
    enabledStep b = some .encFinish := by
  simp [enabledStep, hrun.1, hrun.2, hmode, Nat.not_lt.mpr hle]

@[simp] theorem spendTurn_ibufByte (s : State) : (spendTurn s).ibufByte = s.ibufByte :=
  State.ibufByte_congr (by rw [spendTurn_blk]) (spendTurn_epoch s)

@[simp] theorem spendTurn_groupChars (s : State) : (spendTurn s).groupChars = s.groupChars := by
  simp only [State.groupChars, State.groupByte, spendTurn_ibufByte, spendTurn_blk]

@[simp] theorem spendTurn_encTop (s : State) : (spendTurn s).encTop = s.encTop := by rw [State.encTop, State.encTop, spendTurn_blk]

section Running

variable {s : State} (hinv : s.Inv) (hrun : s.blk.running) (hmode : s.blk.mode = .enc)
include hinv hrun hmode

/-- A group that starts below `LEN` reads inside IBUF, and its characters lie below `OLEN` (rule R41; rule R121, corner case d). -/
theorem encGroup_inRange (hlt : s.blk.iptr.toNat < s.blk.len.toNat) :
    s.encTop < s.cfg.ibufSize ∧ s.blk.optr.toNat + 4 ≤ s.blk.olen.toNat := by
  obtain ⟨hmod, hoptr, holen, -⟩ := hinv.encPtrs hrun hmode
  have hlen := hinv.encLenOk hrun hmode
  rw [encLen] at holen
  rw [State.encTop, Config.ibufSize, Config.decSize]
  omega

/-- Both pointers of ENC_GROUP stay below 2 ^ 16, so they advance as numbers. -/
theorem encGroup_pointers (hlt : s.blk.iptr.toNat < s.blk.len.toNat) :
    (s.blk.iptr + 3#16).toNat = s.blk.iptr.toNat + 3 ∧ (s.blk.optr + 4#16).toNat = s.blk.optr.toNat + 4 := by
  have hlen := hinv.encLenOk hrun hmode
  have hout := (encGroup_inRange hinv hrun hmode hlt).2
  have hmax := hinv.cfg.2
  have holen := s.blk.olen.isLt
  constructor <;> bv_omega

/-- What ENC_GROUP makes of the state (rule R121). -/
theorem step_encGroup (hlt : s.blk.iptr.toNat < s.blk.len.toNat) (hcore : nextAgent s = some .core) :
    step s = .next { spendTurn s with blk := { s.blk with
      obuf := Memory.writeList s.blk.obuf s.blk.optr.toNat s.groupChars.toList
      iptr := s.blk.iptr + 3#16, optr := s.blk.optr + 4#16 } } := by
  obtain ⟨hin, hout⟩ := encGroup_inRange hinv hrun hmode hlt
  have hsize : s.blk.optr.toNat + 3 < s.cfg.obufSize := by
    have := hinv.olenLe
    rw [Config.obufSize]
    omega
  rw [step_core_of_enabled hcore (enabledStep_encGroup hrun hmode hlt), runStep, encGroup_of (by simpa using hin) (by simpa using hsize)]
  simp only [spendTurn_blk, spendTurn_groupChars, State.setBlk]

/-- The pads of ENC_FINISH lie inside the text (rule R122, corner case b). -/
theorem padCount_le_olen : padCount s.blk.len.toNat ≤ s.blk.olen.toNat := by
  obtain ⟨-, -, holen, -⟩ := hinv.encPtrs hrun hmode
  rw [holen]
  exact padCount_le_encLen _

/-- What ENC_FINISH makes of the state (rule R122). -/
theorem step_encFinish (hle : s.blk.len.toNat ≤ s.blk.iptr.toNat) (hcore : nextAgent s = some .core) :
    step s = .next { spendTurn s with blk := { s.blk with
      obuf := padAndTerm s.cfg s.blk.obuf s.blk.olen.toNat (padCount s.blk.len.toNat), busy := false, done := true } } := by
  have hpads := padCount_le_olen hinv hrun hmode
  have hsize : s.blk.olen.toNat < s.cfg.obufSize := Nat.lt_succ_of_le hinv.olenLe
  rw [step_core_of_enabled hcore (enabledStep_encFinish hrun hmode hle), runStep, encFinish_of (by simpa using hpads) (by simpa using hsize)]
  simp only [spendTurn_blk, spendTurn_cfg, State.setBlk]

end Running

/-- The characters of a group that starts below `LEN`: its first byte is always read (rule R121). -/
theorem groupChars_of_lt {s : State} (hlt : s.blk.iptr.toNat < s.blk.len.toNat) :
    s.groupChars = exp3to4 (s.ibufByte s.blk.iptr.toNat)
      (if s.blk.iptr.toNat + 1 < s.blk.len.toNat then s.ibufByte (s.blk.iptr.toNat + 1) else 0x00#8)
      (if s.blk.iptr.toNat + 2 < s.blk.len.toNat then s.ibufByte (s.blk.iptr.toNat + 2) else 0x00#8) := by
  have hfirst : s.groupByte 0 = s.ibufByte s.blk.iptr.toNat := if_pos hlt
  rw [State.groupChars, hfirst, State.groupByte, State.groupByte]

/-- Settles O27: the four characters are one list written at OPTR, whose length gives the frame. -/
theorem encGroupEncodesThreeBytes : Obligations.EncGroupEncodesThreeBytes := by
  intro s hinv hrun hmode hlt hcore
  obtain ⟨hiptr, hoptr⟩ := encGroup_pointers hinv hrun hmode hlt
  refine ⟨_, step_encGroup hinv hrun hmode hlt hcore, rfl, hiptr, hoptr, fun k => ?chars, fun x hx => ?frame⟩
  case chars =>
    rw [← groupChars_of_lt hlt]
    exact State.obufByte_of_read? (Memory.read?_writeList_vector _ _ _ k)
  case frame => exact Memory.read?_writeList_other _ _ (by rwa [State.groupChars_length])

/-- Settles O28: what a byte of OBUF reads as after the writes depends on where its index stands to `OLEN` and the pads. -/
theorem encFinishPadsAndTerminates : Obligations.EncFinishPadsAndTerminates := by
  intro s hinv hrun hmode hle hcore
  have hfit := padCount_le_olen hinv hrun hmode
  have hread := fun x => read?_padAndTerm s.cfg s.blk.obuf s.blk.olen.toNat x (padCount_le s.blk.len.toNat)
  refine ⟨_, step_encFinish hinv hrun hmode hle hcore, rfl, fun hp => ?last, fun hp => ?prev, ?term, fun x hx => ?frame⟩
  case last => exact State.obufByte_of_read? ((hread _).trans (by rw [if_neg (by omega), if_pos (by omega)]))
  case prev => exact State.obufByte_of_read? ((hread _).trans (by rw [if_neg (by omega), if_pos (by omega)]))
  case term => exact State.obufByte_of_read? ((hread _).trans (if_pos rfl))
  case frame => exact (hread x).trans (by rw [if_neg (by omega), if_neg (by omega)])

end Sys2Proof.Machine
end

section
/-! PROOF. The family of 43_decode.md: the two core steps of a running DEC, DEC_GROUP (rule R137) in a state of the invariant and DEC_FINISH (rule R138). -/

namespace Sys2Proof.Machine

/-! ### The classification of characters, by bad indices -/

theorem badError_code (t : Text) (i : Nat) : (badError t i).code = if t i = pad then 5#3 else 4#3 := by
  rw [badError, apply_ite CmdError.code]
  rfl

theorem badError_erridx (t : Text) (i : Nat) (old : Half) : (badError t i).erridx old = BitVec.ofNat 16 i := by
  rw [badError]
  split_ifs <;> rfl

section Classify

variable {inv : Vector InvEntry 256} (hbuilt : ∀ c : Byte, ch2sx inv c = invOf c) {t : Text} {n i : Nat}
include hbuilt

/-- A character that is not bad counts as its sextet (rule R137, part 1; rule R140). -/
theorem classify_of_good (hgood : ¬ badIndex t n i) : classify inv t n i = .ok (textSextet t i) := by
  rw [textSextet]
  obtain ⟨hpad, -, hc⟩ | ⟨hpad, hill, -⟩ | ⟨hpad, -, hc⟩ | ⟨hpad, hout, -⟩ := classify_cases inv t n i
  · rw [hc, if_pos hpad]
  · exact absurd (.inl ⟨hpad, hill⟩) hgood
  · rw [hc, if_neg hpad, hbuilt]
  · exact absurd (.inr ⟨hpad, hbuilt _ ▸ hout⟩) hgood

/-- A bad character is the error of its kind at its index (rule R137, part 1; rule R140). -/
theorem classify_of_bad (hbad : badIndex t n i) : classify inv t n i = .error (badError t i) := by
  rw [badError]
  obtain ⟨hpad, hill⟩ | ⟨hpad, hout⟩ := hbad
  · rw [classify, if_pos hpad, if_pos hpad, hill, if_neg Bool.false_ne_true]
  · rw [classify, if_neg hpad, if_neg hpad, hbuilt, hout, if_neg Bool.false_ne_true]

theorem classifyGroup_of_good (hgood : ∀ k < 4, ¬ badIndex t n (i + k)) :
    classifyGroup inv t n i =
      .ok (join4 (textSextet t i) (textSextet t (i + 1)) (textSextet t (i + 2)) (textSextet t (i + 3))) := by
  have hok := fun k hk => classify_of_good hbuilt (hgood k hk)
  have hfirst : classify inv t n i = .ok (textSextet t i) := hok 0 (by decide)
  rw [classifyGroup, hfirst, hok 1 (by decide), hok 2 (by decide), hok 3 (by decide)]

/-- The first bad character decides, whatever stands after it (rule R137, part 1). -/
theorem classifyGroup_of_first_bad {k : Nat} (hk : k < 4) (hbefore : ∀ j < k, ¬ badIndex t n (i + j))
    (hbad : badIndex t n (i + k)) : classifyGroup inv t n i = .error (badError t (i + k)) := by
  have hok := fun j hj => classify_of_good hbuilt (hbefore j hj)
  have hfirst : 0 < k → classify inv t n i = .ok (textSextet t i) := hok 0
  have herr := classify_of_bad hbuilt hbad
  obtain rfl | rfl | rfl | rfl : k = 0 ∨ k = 1 ∨ k = 2 ∨ k = 3 := by omega
  · rw [Nat.add_zero] at herr ⊢; rw [classifyGroup, herr]
  · rw [classifyGroup, hfirst (by decide), herr]
  · rw [classifyGroup, hfirst (by decide), hok 1 (by decide), herr]
  · rw [classifyGroup, hfirst (by decide), hok 1 (by decide), hok 2 (by decide), herr]

end Classify

/-! ### What DEC_GROUP makes of the block (rule R137) -/

/-- The block after a DEC_GROUP: failed at the first bad character, or the octets below `OLEN` emitted and both pointers advanced. -/
def State.decGrouped (s : State) : Block :=
  match classifyGroup s.blk.inv s.ibufByte s.blk.len.toNat s.blk.iptr.toNat with
  | .error e => s.blk.raise e
  | .ok w => { s.blk with
      obuf := Memory.writeList s.blk.obuf s.blk.optr.toNat (s.emitted w)
      optr := s.blk.optr + BitVec.ofNat 16 (s.emitted w).length, iptr := s.blk.iptr + 4#16 }

theorem decGrouped_of_error {s : State} {e : CmdError}
    (h : classifyGroup s.blk.inv s.ibufByte s.blk.len.toNat s.blk.iptr.toNat = .error e) : s.decGrouped = s.blk.raise e := by
  rw [State.decGrouped, h]

theorem decGrouped_of_ok {s : State} {w : Group}
    (h : classifyGroup s.blk.inv s.ibufByte s.blk.len.toNat s.blk.iptr.toNat = .ok w) :
    s.decGrouped = { s.blk with
      obuf := Memory.writeList s.blk.obuf s.blk.optr.toNat (s.emitted w)
      optr := s.blk.optr + BitVec.ofNat 16 (s.emitted w).length, iptr := s.blk.iptr + 4#16 } := by
  rw [State.decGrouped, h]

/-- DEC_GROUP with every access inside its buffer. -/
theorem decGroup_eq_decGrouped {s : State} (hlast : s.blk.iptr.toNat + 3 < s.cfg.ibufSize) (hlen : s.blk.len.toNat - 1 < s.cfg.ibufSize)
    (hout : s.blk.optr.toNat + min (s.blk.olen.toNat - s.blk.optr.toNat) 3 ≤ s.cfg.obufSize) :
    decGroup s = .next (s.setBlk s.decGrouped) := by
  cases hc : classifyGroup s.blk.inv s.ibufByte s.blk.len.toNat s.blk.iptr.toNat with
  | error e => rw [decGroup_of_error hlast hlen hc, decGrouped_of_error hc]
  | ok w => rw [decGroup_of_ok hlast hlen hc (by rwa [State.emitted_length]), decGrouped_of_ok hc]

@[simp] theorem spendTurn_decGrouped (s : State) : (spendTurn s).decGrouped = s.decGrouped := by
  simp only [State.decGrouped, State.emitted, spendTurn_blk, spendTurn_ibufByte]

/-- The octets below `OLEN` are those of the group in their order. -/
theorem State.emitted_getElem? (s : State) (w : Group) (j : Fin 3) (hj : s.blk.optr.toNat + j.val < s.blk.olen.toNat) :
    (s.emitted w)[j.val]? = some (oct w j) := by
  rw [State.emitted, List.getElem?_take_of_lt (by omega)]
  fin_cases j <;> rfl

/-- An emitted octet stands in OBUF at its place from OPTR on. -/
theorem read?_emitted (s : State) (m : Memory) (w : Group) (j : Fin 3) (hj : s.blk.optr.toNat + j.val < s.blk.olen.toNat) :
    Memory.read? (Memory.writeList m s.blk.optr.toNat (s.emitted w)) (s.blk.optr.toNat + j.val) = some (oct w j) := by
  have hlen := s.emitted_length w
  rw [Memory.read?_writeList, if_pos (by omega), Nat.add_sub_cancel_left, s.emitted_getElem? w j hj]

/-! ### Which step of a DEC is enabled, and the range of its accesses -/

theorem enabledStep_decGroup {b : Block} (hrun : b.running) (hmode : b.mode = .dec) (hlt : b.iptr.toNat < b.len.toNat) :
    enabledStep b = some .decGroup := by
  simp [enabledStep, hrun.1, hrun.2, hmode, hlt]

theorem enabledStep_decFinish {b : Block} (hrun : b.running) (hmode : b.mode = .dec) (hle : b.len.toNat ≤ b.iptr.toNat) :
    enabledStep b = some .decFinish := by
  simp [enabledStep, hrun.1, hrun.2, hmode, Nat.not_lt.mpr hle]

section Running

variable {s : State} (hinv : s.Inv) (hrun : s.blk.running) (hmode : s.blk.mode = .dec)
include hinv hrun hmode

/-- A group that starts below `LEN` ends below it, and `LEN` lies inside IBUF (rule R41). -/
theorem decGroup_inRange (hlt : s.blk.iptr.toNat < s.blk.len.toNat) :
    s.blk.iptr.toNat + 3 < s.blk.len.toNat ∧ s.blk.len.toNat ≤ s.cfg.ibufSize := by
  obtain ⟨hfits, hwhole⟩ := hinv.decLenOk hrun hmode
  obtain ⟨hmod, -, -⟩ := hinv.decPtrs hrun hmode
  exact ⟨by omega, hfits⟩

theorem decGroup_optr_le_olen : s.blk.optr.toNat ≤ s.blk.olen.toNat := by
  obtain ⟨-, -, hoptr⟩ := hinv.decPtrs hrun hmode
  omega

/-- `IPTR` of DEC_GROUP stays at or below `LEN`, so it advances as a number. -/
theorem decGroup_iptr_toNat (hlt : s.blk.iptr.toNat < s.blk.len.toNat) : (s.blk.iptr + 4#16).toNat = s.blk.iptr.toNat + 4 := by
  obtain ⟨hlast, hfits⟩ := decGroup_inRange hinv hrun hmode hlt
  have hsize : s.cfg.ibufSize ≤ 65532 := decSize_le_of_wf hinv.cfg
  bv_omega

/-- `OPTR` of DEC_GROUP stays at or below `OLEN`, so it advances as a number. -/
theorem decGroup_optr_toNat (w : Group) :
    (s.blk.optr + BitVec.ofNat 16 (s.emitted w).length).toNat = s.blk.optr.toNat + (s.emitted w).length := by
  have hout := decGroup_optr_le_olen hinv hrun hmode
  have hlen := s.emitted_length w
  have holen := s.blk.olen.isLt
  rw [BitVec.toNat_add, BitVec.toNat_ofNat]
  omega

theorem step_decGroup (hlt : s.blk.iptr.toNat < s.blk.len.toNat) (hcore : nextAgent s = some .core) :
    step s = .next { spendTurn s with blk := s.decGrouped } := by
  obtain ⟨hlast, hfits⟩ := decGroup_inRange hinv hrun hmode hlt
  have hout : s.blk.optr.toNat + min (s.blk.olen.toNat - s.blk.optr.toNat) 3 ≤ s.cfg.obufSize := by
    have hoptr := decGroup_optr_le_olen hinv hrun hmode
    have holen := hinv.olenLe
    rw [Config.obufSize]
    omega
  rw [step_core_of_enabled hcore (enabledStep_decGroup hrun hmode hlt), runStep,
    decGroup_eq_decGrouped (by rw [spendTurn_blk, spendTurn_cfg]; omega) (by rw [spendTurn_blk, spendTurn_cfg]; omega)
      (by rwa [spendTurn_blk, spendTurn_cfg]), spendTurn_decGrouped, State.setBlk]

end Running

/-- Settles O29: the next block is the grouped one; no bad character makes it the emitted octets, a first bad one its error. -/
theorem decGroupDecodesOrFails : Obligations.DecGroupDecodesOrFails := by
  intro s hinv hrun hmode hlt hcore
  have hbuilt := hinv.tableBuilt hrun.1
  refine ⟨_, step_decGroup hinv hrun hmode hlt hcore, fun hgood => ?good, fun k hk hbefore hbad => ?failed⟩
  case good =>
    rw [decGrouped_of_ok (classifyGroup_of_good hbuilt hgood)]
    have hoptr := decGroup_optr_toNat hinv hrun hmode
    refine ⟨rfl, decGroup_iptr_toNat hinv hrun hmode hlt, ?optr, fun j hj => State.obufByte_of_read? (read?_emitted s _ _ j hj),
      fun x hx => ?frame⟩
    case optr => rw [hoptr, State.emitted_length, Nat.min_comm]
    case frame => exact Memory.read?_writeList_other _ _ (by rwa [hoptr] at hx)
  case failed =>
    rw [decGrouped_of_error (classifyGroup_of_first_bad hbuilt hk hbefore hbad), Block.raise, badError_code, badError_erridx]

/-- Settles O30: DEC_FINISH is the completion without error, on the state with the turn used up. -/
theorem decFinishCompletes : Obligations.DecFinishCompletes := by
  intro s hrun hmode hle hcore
  rw [step_core_of_enabled hcore (enabledStep_decFinish hrun hmode hle), runStep, decFinish, spendTurn_blk, State.setBlk, Block.complete]

end Sys2Proof.Machine
end

section
/-! PROOF. The family of 44_table_init.md: INIT, the one core step that a block without its inverse table can take (rule R155). -/

namespace Sys2Proof.Machine

/-! ### The inverse of the alphabet, by whether the byte is an alphabet character -/

/-- The 64 characters of the alphabet are distinct, so each one's index is found (rule R111). -/
theorem invOf_sx2ch (k : Sextet) : invOf (sx2ch k) = { v := true, val := k } := by
  revert k
  decide

/-- A byte that is no alphabet character is at none of the 64 indices (rule R111). -/
theorem invOf_of_forall_sx2ch_ne {c : Byte} (hc : ∀ k : Sextet, sx2ch k ≠ c) : invOf c = { v := false, val := 0#6 } := by
  have hnone : lastHit c (List.range 64) = none := List.find?_eq_none.mpr fun i _ => by simpa using hc (BitVec.ofNat 6 i)
  rw [lastHit_range, hnone]

/-! ### The table that INIT's 64 writes build -/

theorem ch2sx_buildInv_sx2ch (inv : Vector InvEntry 256) (k : Sextet) :
    ch2sx (buildInv inv) (sx2ch k) = { v := true, val := k } := by
  rw [ch2sx_buildInv, invOf_sx2ch, if_pos rfl]

theorem ch2sx_buildInv_of_forall_sx2ch_ne (inv : Vector InvEntry 256) {c : Byte} (hc : ∀ k : Sextet, sx2ch k ≠ c) :
    ch2sx (buildInv inv) c = ch2sx inv c := by
  rw [ch2sx_buildInv, invOf_of_forall_sx2ch_ne hc, if_neg Bool.false_ne_true]

/-! ### The step -/

/-- Until the table is built, a step of the core is INIT, on the state with the turn used up (rules R155, R176). -/
theorem step_init {s : State} (hunbuilt : s.blk.tblrdy = false) (hcore : nextAgent s = some .core) :
    step s = .next { spendTurn s with blk := s.blk.init } := by
  rw [step_core_of_enabled hcore (enabledStep_of_tblrdy_false hunbuilt), runStep, initStep, spendTurn_blk, State.setBlk]

/-- INIT leaves the core with nothing to do: the table is built and no command runs (rule R155). -/
theorem enabledStep_init (b : Block) : enabledStep b.init = none := rfl

/-- Settles O3: the step is INIT, whose 64 writes are read back by whether the byte is an alphabet character. -/
theorem initBuildsInverseTable : Obligations.InitBuildsInverseTable := by
  intro s hunbuilt hcore
  refine ⟨_, step_init hunbuilt hcore, ?frame, ?alphabet, ?others, enabledStep_init s.blk⟩
  case frame => rfl
  case alphabet => exact ch2sx_buildInv_sx2ch s.blk.inv
  case others => exact fun _ hc => ch2sx_buildInv_of_forall_sx2ch_ne s.blk.inv hc

end Sys2Proof.Machine
end

section
/-! PROOF. The family of 60_exceptions.md: the error completion (rule R166) and the three errors of the issue, ERR_CMD (rule R161), ERR_LEN
(rule R162) and ERR_FMT (rule R163). -/

namespace Sys2Proof.Machine

/-! ### The error completion (rule R166) -/

/-- The registers of the error completion, by the value that the error gives `ERRIDX`: its old one, or the index of a character. -/
theorem Block.raise_of_erridx {b : Block} {e : CmdError} {i : Half} (h : e.erridx b.erridx = i) :
    b.raise e = { b with err := true, ecode := e.code, erridx := i, olen := 0#16, done := true, busy := false } := by
  rw [Block.raise, h]

/-- Settles O31: the three errors of the issue keep `ERRIDX`, the two of a DEC_GROUP give it their character's index. -/
theorem errorCompletionRegisters : Obligations.ErrorCompletionRegisters := by
  intro b i
  refine ⟨?cmd, ?len, ?fmt, ?char, ?pad⟩
  case cmd => exact Block.raise_of_erridx rfl
  case len => exact Block.raise_of_erridx rfl
  case fmt => exact Block.raise_of_erridx rfl
  case char => exact Block.raise_of_erridx rfl
  case pad => exact Block.raise_of_erridx rfl

/-! ### A command that fails at its issue (rules R86, R161 to R163) -/

/-- After a failed issue `ERRIDX` is 0: the latch cleared it and the errors of the issue carry no index. -/
theorem Block.latch_raise {e : CmdError} (h : e.erridx 0#16 = 0#16) (b : Block) (m : Mode) (len : Half) :
    (b.latch m len).raise e = { b with
      mode := m, len := len, olen := 0#16, iptr := 0#16, optr := 0#16, erridx := 0#16,
      busy := false, done := true, err := true, ecode := e.code, bsywr := false } := by
  rw [Block.raise_of_erridx ((congrArg e.erridx (Block.latch_erridx b m len)).trans h), Block.latch]

/-- Settles O19: a reserved bit decides validation before the mode and the length are looked at. -/
theorem illegalWordFailsWithErrCmd : Obligations.IllegalWordFailsWithErrCmd := by
  intro s w rest hacts hidle hreserved
  rw [step_wcsr_zero_idle hacts hidle, issued_of_error (issueError_of_reserved s.cfg hreserved), Block.latchWord, Block.latch_raise rfl]
  rfl

theorem exec_enc_above_capacity {s : State} {len : Half} (hidle : s.blk.busy = false) (hlong : s.cfg.encSize < len.toNat) :
    exec (.enc len) s = .next (s.setBlk ((s.blk.latch .enc len).raise .len)) := by
  rw [exec_enc_idle len hidle, if_pos hlong]

theorem exec_dec_above_capacity {s : State} {len : Half} (hidle : s.blk.busy = false) (hlong : s.cfg.decSize < len.toNat) :
    exec (.dec len) s = .next (s.setBlk ((s.blk.latch .dec len).raise .len)) := by
  rw [exec_dec_idle len hidle, if_pos hlong]

theorem exec_dec_partial_group {s : State} {len : Half} (hidle : s.blk.busy = false) (hfits : len.toNat ≤ s.cfg.decSize)
    (hpartial : len.toNat % 4 ≠ 0) : exec (.dec len) s = .next (s.setBlk ((s.blk.latch .dec len).raise .fmt)) := by
  rw [exec_dec_idle len hidle, if_neg (Nat.not_lt.mpr hfits), if_pos hpartial]

/-- The issue of an ENC ends with ERR_LEN or with no error (rules R86, R162). -/
theorem exec_enc_idle_ecode {s t : State} {len : Half} (hidle : s.blk.busy = false) (h : exec (.enc len) s = .next t) :
    t.blk.ecode = if s.cfg.encSize < len.toNat then 2#3 else 0#3 := by
  rw [exec_enc_idle len hidle] at h
  obtain rfl := next_eq h
  rw [State.setBlk_blk, apply_ite Block.ecode]
  rfl

/-- Settles O20: each mode has its own capacity, and its excess is the first thing validation finds. -/
theorem lengthAboveCapacityFails : Obligations.LengthAboveCapacityFails := by
  intro s len hidle
  refine ⟨fun hlong => ?enc, fun hlong => ?dec⟩
  case enc => rw [exec_enc_above_capacity hidle hlong, Block.latch_raise rfl]; rfl
  case dec => rw [exec_dec_above_capacity hidle hlong, Block.latch_raise rfl]; rfl

/-- Settles O21: a DEC within the capacity fails on a partial group; the codes an ENC can end its issue with are 2 and 0. -/
theorem decodeLengthNotMultipleOfFourFails : Obligations.DecodeLengthNotMultipleOfFourFails := by
  intro s len hidle
  refine ⟨fun hfits hpartial => ?fmt, fun t ht => ?neverEnc⟩
  case fmt => rw [exec_dec_partial_group hidle hfits hpartial, Block.latch_raise rfl]; rfl
  case neverEnc =>
    rw [exec_enc_idle_ecode hidle ht]
    split_ifs <;> decide

end Sys2Proof.Machine
end

section
/-! PROOF. The whole of 30_encoding.md: encoding and decoding undo each other (rules R60, R64), with the command words written out by hand. -/

namespace Sys2Proof

/-! ### The fields of an encoded word (rule R60) -/

open Laws.EncodedWord in
/-- The word of an instruction by its fields: no reserved bit, the instruction's MODE bit, its LEN. -/
theorem encode_eq_fields (i : Instr) : encode i = 0#15 ++ BitVec.ofBool (modeBit i) ++ len i := by
  cases i with
  | enc n => rfl
  | dec n => rfl

/-- The three fields of a word that is written as their concatenation. -/
theorem fields_of_append (r : BitVec 15) (m : Bool) (n : Half) :
    wordRsv (r ++ BitVec.ofBool m ++ n) = r ∧ wordModeBit (r ++ BitVec.ofBool m ++ n) = m ∧ wordLen (r ++ BitVec.ofBool m ++ n) = n := by
  refine ⟨?rsv, ?mode, BitVec.extractLsb'_append_eq_right⟩
  case rsv =>
    refine BitVec.eq_of_getLsbD_eq fun i hi => ?_
    have hlen : ¬ 17 + i < 16 := by omega
    have hmode : ¬ 17 + i - 16 < 1 := by omega
    have hrsv : 17 + i - 16 - 1 = i := by omega
    simp only [wordRsv, BitVec.getLsbD_extractLsb', BitVec.getLsbD_append, if_neg hlen, if_neg hmode, hrsv]
    simp [hi]
  case mode =>
    simp only [wordModeBit, BitVec.getLsbD_append]
    simp

/-- The reserved bits of an encoded word are 0 (rule R63). -/
theorem wordRsv_encode (i : Instr) : wordRsv (encode i) = 0#15 := by
  rw [encode_eq_fields]
  exact (fields_of_append _ _ _).1

theorem decode_encode (i : Instr) : decode (encode i) = .ok i := by
  cases i with
  | enc n =>
    obtain ⟨hrsv, hmode, hlen⟩ := fields_of_append 0#15 false n
    exact (decode_of_legal_enc hrsv hmode).trans (by rw [hlen])
  | dec n =>
    obtain ⟨hrsv, hmode, hlen⟩ := fields_of_append 0#15 true n
    exact (decode_of_legal_dec hrsv hmode).trans (by rw [hlen])

/-- A word without reserved bits decodes to an instruction that it is the encoding of (rules R60, R64). -/
theorem decode_of_legal {w : Word} (h : wordRsv w = 0#15) : ∃ i, decode w = .ok i ∧ encode i = w := by
  have hw := word_eq_fields w
  rw [h] at hw
  cases hm : wordModeBit w with
  | false => exact ⟨_, decode_of_legal_enc h hm, by rw [hm] at hw; exact hw.symm⟩
  | true => exact ⟨_, decode_of_legal_dec h hm, by rw [hm] at hw; exact hw.symm⟩

theorem decode_eq_ok_iff (w : Word) (i : Instr) : decode w = .ok i ↔ encode i = w := by
  refine ⟨fun hdec => ?_, fun henc => henc ▸ decode_encode i⟩
  by_cases hrsv : wordRsv w = 0#15
  · obtain ⟨j, hj, hw⟩ := decode_of_legal hrsv
    cases hdec.symm.trans hj
    exact hw
  · cases hdec.symm.trans (decode_of_reserved hrsv)

/-- Settles O12: decoding undoes encoding, a word without reserved bits is the word of what it decodes to, and one with them is no instruction's. -/
theorem decodeEncodeAgree : Obligations.DecodeEncodeAgree := by
  refine ⟨decode_eq_ok_iff, fun w => ⟨?encoded, ?legal⟩⟩
  case encoded => rintro ⟨i, rfl⟩; exact wordRsv_encode i
  case legal =>
    intro hrsv
    obtain ⟨i, -, hi⟩ := decode_of_legal hrsv
    exact ⟨i, hi⟩

/-- Settles O13: seven words, each decoded by evaluation. -/
theorem sampleWordsDecode : Obligations.SampleWordsDecode := by
  refine ⟨?enc3, ?enc60, ?dec4, ?dec80, ?decMax, ?bit17, ?bit31⟩ <;> decide

end Sys2Proof
end

section
/-! PROOF. The state invariants of 10_state.md (rule R35): they hold at reset, and every action of the host and of the core keeps them. One lemma for each
thing that an action can make of the block. -/

namespace Sys2Proof.Machine

/-! ### The invariant reads the parameters and the block alone -/

theorem State.Inv.of_blk_eq {s t : State} (hinv : s.Inv) (hcfg : t.cfg = s.cfg) (hblk : t.blk = s.blk) : t.Inv := by
  obtain ⟨cfg, blk, _, _, _, _⟩ := s
  obtain ⟨cfg', blk', _, _, _, _⟩ := t
  obtain rfl : cfg' = cfg := hcfg
  obtain rfl : blk' = blk := hblk
  exact { hinv with }

theorem State.Inv.popped {s : State} (hinv : s.Inv) (rest : List HostLine) : (s.popped rest).Inv :=
  hinv.of_blk_eq (State.popped_cfg s rest) (State.popped_blk s rest)

theorem State.Inv.spendTurn {s : State} (hinv : s.Inv) : (spendTurn s).Inv :=
  hinv.of_blk_eq (spendTurn_cfg s) (spendTurn_blk s)

/-! ### The reset -/

theorem invOf_of_not_v (c : Byte) (h : (invOf c).v = false) : invOf c = { v := false, val := 0#6 } := by
  revert c
  decide

/-- The reset block meets the invariant under every configuration in range: nothing runs, nothing is built, no buffer lists a byte. -/
theorem Block.reset_inv {s : State} (hcfg : s.cfg.wf) : (s.setBlk Block.reset).Inv where
  cfg := hcfg
  ibufWf := Block.reset_buffers_wf.1
  ibufBelow := nofun
  obufWf := Block.reset_buffers_wf.2
  obufBelow := nofun
  notReady _ := ⟨rfl, rfl, rfl, rfl⟩
  tableReset _ := ch2sx_reset_inv
  doneIdle := nofun
  errDone := nofun
  noErr _ := ⟨rfl, rfl⟩
  ecodeLe := Nat.zero_le 5
  issueErr _ := rfl
  groupErr := by simp [Block.reset]
  encLenOk := nofun
  decLenOk := nofun
  encPtrs := nofun
  decPtrs := nofun
  tableBuilt := nofun
  olenLe := Nat.zero_le _

/-- Settles O40: the reset state is the reset block under the default parameters. -/
theorem invariantAtReset : Obligations.InvariantAtReset :=
  Block.reset_inv (s := State.reset) (show Config.standard.wf by decide)

/-! ### The host's actions on the block -/

/-- A length within the larger capacity fits a 16-bit register (rule R5). -/
theorem toNat_ofNat_of_le_decSize {c : Config} {n : Nat} (hc : c.wf) (hn : n ≤ c.decSize) : (BitVec.ofNat 16 n).toNat = n := by
  have hsize := decSize_le_of_wf hc
  rw [BitVec.toNat_ofNat]
  omega

section Actions

variable {s : State} (hinv : s.Inv)
include hinv

theorem State.Inv.dropWrite : (s.setBlk s.blk.dropWrite).Inv := { hinv with }

theorem State.Inv.writeIbuf {i : Nat} (b : Byte) (hi : i < s.cfg.ibufSize) :
    (s.setBlk { s.blk with ibuf := Memory.write s.blk.ibuf i b }).Inv :=
  { hinv with
    ibufWf := Memory.write_wf i b hinv.ibufWf
    ibufBelow := Memory.write_below b hinv.ibufBelow hi }

/-- A block that is not busy has its table (rule R35, item 1). -/
theorem State.Inv.tblrdy_of_idle (hidle : s.blk.busy = false) : s.blk.tblrdy = true := by
  by_contra hunbuilt
  obtain ⟨hbusy, -⟩ := hinv.notReady (Bool.eq_false_of_not_eq_true hunbuilt)
  exact absurd (hidle.symm.trans hbusy) Bool.false_ne_true

/-- A command that fails at its issue (rules R86, R166). -/
theorem State.Inv.failIssue (hidle : s.blk.busy = false) (m : Mode) (len : Half) {e : CmdError}
    (he : e = .cmd ∨ e = .len ∨ e = .fmt) : (s.setBlk ((s.blk.latch m len).raise e)).Inv := by
  have hbuilt := hinv.tblrdy_of_idle hidle
  have hidx : e.erridx 0#16 = 0#16 := by rcases he with rfl | rfl | rfl <;> rfl
  have hcode : e.code ≠ 0#3 ∧ e.code.toNat ≤ 5 ∧ e.code ≠ 4#3 ∧ e.code ≠ 5#3 := by
    rcases he with rfl | rfl | rfl <;> decide
  obtain ⟨hne, hle, h4, h5⟩ := hcode
  exact { hinv with
    notReady := fun h => absurd (hbuilt.symm.trans h) nofun
    doneIdle := fun _ => rfl
    errDone := fun _ => ⟨rfl, hne, rfl⟩
    noErr := nofun
    ecodeLe := hle
    issueErr := fun _ => hidx
    groupErr := fun h => (h.elim h4 h5).elim
    encLenOk := nofun
    decLenOk := nofun
    encPtrs := nofun
    decPtrs := nofun
    olenLe := Nat.zero_le _ }

/-- An accepted command starts at the beginning of both buffers (rule R86). -/
theorem State.Inv.acceptIssue (hidle : s.blk.busy = false) {m : Mode} {len : Half} {olen : Nat} (holen : olen ≤ s.cfg.decSize)
    (henc : m = .enc → len.toNat ≤ s.cfg.encSize ∧ olen = encLen len.toNat)
    (hdec : m = .dec → len.toNat ≤ s.cfg.decSize ∧ len.toNat % 4 = 0) :
    (s.setBlk ((s.blk.latch m len).accept olen)).Inv := by
  have hbuilt := hinv.tblrdy_of_idle hidle
  have hnum := toNat_ofNat_of_le_decSize hinv.cfg holen
  exact { hinv with
    notReady := fun h => absurd (hbuilt.symm.trans h) nofun
    doneIdle := nofun
    errDone := nofun
    noErr := fun _ => ⟨rfl, rfl⟩
    ecodeLe := Nat.zero_le 5
    issueErr := fun _ => rfl
    groupErr := fun h => absurd h (show ¬ (0#3 = 4#3 ∨ 0#3 = 5#3) by decide)
    encLenOk := fun _ hm => (henc hm).1
    decLenOk := fun _ hm => hdec hm
    encPtrs := fun _ hm => ⟨rfl, by simp, hnum.trans (henc hm).2, Nat.zero_le _⟩
    decPtrs := fun _ _ => ⟨rfl, Nat.zero_le _, by simp⟩
    olenLe := hnum.le.trans holen }

/-- A line of the host keeps the invariant (rules R80 to R87). -/
theorem State.Inv.runLine {l : HostLine} {t : State} (h : runLine l s = .next t) : t.Inv := by
  obtain ⟨hcfg, ⟨-, -, hb | ⟨-, hb⟩ | ⟨-, i, b, hi, hb⟩ | ⟨hidle, -, m, len, e, he, hb⟩ | ⟨hidle, -, len, hlen, hb⟩ |
    ⟨hidle, -, len, hlen, hmod, hb⟩⟩ | ⟨-, hb⟩⟩ := runLine_blk h
  · exact hinv.of_blk_eq hcfg hb
  · exact hinv.dropWrite.of_blk_eq hcfg hb
  · exact (hinv.writeIbuf b hi).of_blk_eq hcfg hb
  · exact (hinv.failIssue hidle m len he).of_blk_eq hcfg hb
  · exact (hinv.acceptIssue (m := .enc) hidle (encLen_le_decSize hlen) (fun _ => ⟨hlen, rfl⟩) nofun).of_blk_eq hcfg hb
  · exact (hinv.acceptIssue (m := .dec) hidle (decLen_le_decSize hlen) nofun (fun _ => ⟨hlen, hmod⟩)).of_blk_eq hcfg hb
  · exact (Block.reset_inv hinv.cfg).of_blk_eq hcfg hb

/-! ### The core's steps -/

/-- INIT turns the empty table into the inverse of the alphabet, and nothing runs after it (rule R155). -/
theorem State.Inv.init (hunbuilt : s.blk.tblrdy = false) : (s.setBlk s.blk.init).Inv :=
  { hinv with
    notReady := nofun
    tableReset := nofun
    doneIdle := fun _ => rfl
    encLenOk := nofun
    decLenOk := nofun
    encPtrs := nofun
    decPtrs := nofun
    tableBuilt := fun _ c => by
      rw [State.setBlk_blk, Block.init_inv, ch2sx_buildInv, hinv.tableReset hunbuilt]
      split_ifs with hv
      · rfl
      · exact (invOf_of_not_v c (Bool.eq_false_of_not_eq_true hv)).symm }

/-- A running command has found no error yet (rule R35, items 2 to 4). -/
theorem State.Inv.clean_of_running (hrun : s.blk.running) : s.blk.done = false ∧ s.blk.err = false := by
  have hdone : s.blk.done = false := by
    by_contra h
    exact absurd (hrun.2.symm.trans (hinv.doneIdle (Bool.eq_true_of_not_eq_false h))) nofun
  refine ⟨hdone, ?_⟩
  by_contra h
  obtain ⟨hd, -⟩ := hinv.errDone (Bool.eq_true_of_not_eq_false h)
  exact absurd (hdone.symm.trans hd) nofun

/-- The completion without error of a running command (rules R122, R138), whatever its last step wrote to OBUF. -/
theorem State.Inv.complete (hrun : s.blk.running) {m : Memory} (hwf : m.wf) (hbelow : m.below s.cfg.obufSize) :
    (s.setBlk { s.blk with obuf := m, busy := false, done := true }).Inv := by
  have hclean := (hinv.clean_of_running hrun).2
  exact { hinv with
    obufWf := hwf
    obufBelow := hbelow
    notReady := fun h => absurd (hrun.1.symm.trans h) nofun
    doneIdle := fun _ => rfl
    errDone := fun h => absurd (hclean.symm.trans h) nofun
    encLenOk := nofun
    decLenOk := nofun
    encPtrs := nofun
    decPtrs := nofun }

/-- What ENC_GROUP makes of the block (rule R121). -/
def State.encGrouped (s : State) : Block :=
  { s.blk with
    obuf := Memory.writeList s.blk.obuf s.blk.optr.toNat s.groupChars.toList
    iptr := s.blk.iptr + 3#16, optr := s.blk.optr + 4#16 }

/-- What ENC_FINISH makes of the block (rule R122). -/
def State.encFinished (s : State) : Block :=
  { s.blk with
    obuf := padAndTerm s.cfg s.blk.obuf s.blk.olen.toNat (padCount s.blk.len.toNat), busy := false, done := true }

/-- ENC_GROUP advances both pointers by a group, inside both buffers (rule R35, item 8). -/
theorem State.Inv.encGrouped (hrun : s.blk.running) (hmode : s.blk.mode = .enc) (hlt : s.blk.iptr.toNat < s.blk.len.toNat) :
    (s.setBlk s.encGrouped).Inv := by
  obtain ⟨hiptr, hoptr⟩ := encGroup_pointers hinv hrun hmode hlt
  obtain ⟨-, hout⟩ := encGroup_inRange hinv hrun hmode hlt
  obtain ⟨hmod, hptrs, holen, -⟩ := hinv.encPtrs hrun hmode
  have hsize := hinv.olenLe
  have hcode := (hinv.noErr (hinv.clean_of_running hrun).2).1
  have hwhole : (s.blk.iptr + 3#16).toNat % 3 = 0 := by omega
  have hptrs' : (s.blk.optr + 4#16).toNat = 4 * ((s.blk.iptr + 3#16).toNat / 3) := by omega
  have hle : (s.blk.iptr + 3#16).toNat ≤ 3 * ((s.blk.len.toNat + 2) / 3) := by omega
  exact { hinv with
    obufWf := Memory.writeList_wf _ _ hinv.obufWf
    obufBelow := Memory.writeList_below _ _ hinv.obufBelow
      (.inr (by rw [State.groupChars_length, State.setBlk_cfg, Config.obufSize]; omega))
    groupErr := fun h => by simp [State.encGrouped, hcode] at h
    encPtrs := fun _ _ => ⟨hwhole, hptrs', holen, hle⟩
    decPtrs := fun _ hm => absurd (hmode.symm.trans hm) nofun }

omit hinv in
theorem padAndTerm_wf {m : Memory} (c : Config) (n p : Nat) (h : m.wf) : (padAndTerm c m n p).wf := by
  unfold padAndTerm
  refine Memory.write_wf _ _ ?_
  split_ifs <;> simp only [Memory.write_wf, h]

omit hinv in
theorem padAndTerm_below {m : Memory} {c : Config} {n p size : Nat} (h : m.below size) (hn : n < size) :
    (padAndTerm c m n p).below size := by
  unfold padAndTerm
  refine Memory.write_below _ ?_ hn
  split_ifs
  · exact Memory.write_below _ (Memory.write_below _ h (by omega)) (by omega)
  · exact Memory.write_below _ h (by omega)
  · exact Memory.write_below _ h (by omega)
  · exact h

theorem State.Inv.encFinished (hrun : s.blk.running) : (s.setBlk s.encFinished).Inv :=
  hinv.complete hrun (padAndTerm_wf _ _ _ hinv.obufWf) (padAndTerm_below hinv.obufBelow (Nat.lt_succ_of_le hinv.olenLe))

omit hinv in
/-- Among finitely many indices of which one is bad there is a lowest bad one. -/
theorem exists_first_bad {t : Text} {n i m : Nat} (h : ¬ ∀ k < m, ¬ badIndex t n (i + k)) :
    ∃ k < m, (∀ j < k, ¬ badIndex t n (i + j)) ∧ badIndex t n (i + k) := by
  classical
  push Not at h
  have hmin : ∀ j < Nat.find h, ¬ badIndex t n (i + j) := fun j hj hbad =>
    Nat.find_min h hj ⟨hj.trans (Nat.find_spec h).1, hbad⟩
  exact ⟨Nat.find h, (Nat.find_spec h).1, hmin, (Nat.find_spec h).2⟩

/-- What DEC_GROUP makes of the block when its four characters are good and `w` is their group value (rule R137, part 2). -/
def State.decEmitted (s : State) (w : Group) : Block :=
  { s.blk with
    obuf := Memory.writeList s.blk.obuf s.blk.optr.toNat (s.emitted w)
    optr := s.blk.optr + BitVec.ofNat 16 (s.emitted w).length, iptr := s.blk.iptr + 4#16 }

/-- Four good characters are decoded (rule R137). -/
theorem State.Inv.decGrouped_of_good (hrun : s.blk.running) (hmode : s.blk.mode = .dec)
    (hgood : ∀ k < 4, ¬ badIndex s.ibufByte s.blk.len.toNat (s.blk.iptr.toNat + k)) :
    s.decGrouped = s.decEmitted (textGroup s.ibufByte (s.blk.iptr.toNat / 4)) := by
  have hstart : 4 * (s.blk.iptr.toNat / 4) = s.blk.iptr.toNat := by
    obtain ⟨hmod, -⟩ := hinv.decPtrs hrun hmode
    omega
  rw [textGroup, hstart]
  exact decGrouped_of_ok (classifyGroup_of_good (hinv.tableBuilt hrun.1) hgood)

/-- The first bad character of a group fails it (rule R137). -/
theorem State.Inv.decGrouped_of_first_bad (hrun : s.blk.running) {k : Nat} (hk : k < 4)
    (hbefore : ∀ j < k, ¬ badIndex s.ibufByte s.blk.len.toNat (s.blk.iptr.toNat + j))
    (hbad : badIndex s.ibufByte s.blk.len.toNat (s.blk.iptr.toNat + k)) :
    s.decGrouped = s.blk.raise (badError s.ibufByte (s.blk.iptr.toNat + k)) :=
  decGrouped_of_error (classifyGroup_of_first_bad (hinv.tableBuilt hrun.1) hk hbefore hbad)

/-- A DEC_GROUP decodes four good characters or fails at the first bad one (rule R137). -/
theorem State.Inv.decGrouped_cases (hrun : s.blk.running) (hmode : s.blk.mode = .dec) :
    ((∀ k < 4, ¬ badIndex s.ibufByte s.blk.len.toNat (s.blk.iptr.toNat + k)) ∧
      s.decGrouped = s.decEmitted (textGroup s.ibufByte (s.blk.iptr.toNat / 4))) ∨
    (∃ k < 4, (∀ j < k, ¬ badIndex s.ibufByte s.blk.len.toNat (s.blk.iptr.toNat + j)) ∧
      badIndex s.ibufByte s.blk.len.toNat (s.blk.iptr.toNat + k) ∧
      s.decGrouped = s.blk.raise (badError s.ibufByte (s.blk.iptr.toNat + k))) := by
  by_cases hgood : ∀ k < 4, ¬ badIndex s.ibufByte s.blk.len.toNat (s.blk.iptr.toNat + k)
  · exact .inl ⟨hgood, hinv.decGrouped_of_good hrun hmode hgood⟩
  · obtain ⟨k, hk, hbefore, hbad⟩ := exists_first_bad hgood
    exact .inr ⟨k, hk, hbefore, hbad, hinv.decGrouped_of_first_bad hrun hk hbefore hbad⟩

/-- DEC_GROUP of four good characters advances both pointers, inside both buffers (rule R35, item 9). -/
theorem State.Inv.decEmitted (hrun : s.blk.running) (hmode : s.blk.mode = .dec) (hlt : s.blk.iptr.toNat < s.blk.len.toNat) (w : Group) :
    (s.setBlk (s.decEmitted w)).Inv := by
  have hiptr := decGroup_iptr_toNat hinv hrun hmode hlt
  have hoptr := decGroup_optr_toNat hinv hrun hmode w
  have hcount := s.emitted_length w
  obtain ⟨hlast, -⟩ := decGroup_inRange hinv hrun hmode hlt
  obtain ⟨hmod, -, hptrs⟩ := hinv.decPtrs hrun hmode
  have hsize := hinv.olenLe
  have hcode := (hinv.noErr (hinv.clean_of_running hrun).2).1
  have hwhole : (s.blk.iptr + 4#16).toNat % 4 = 0 := by omega
  have hle : (s.blk.iptr + 4#16).toNat ≤ s.blk.len.toNat := by omega
  have hptrs' : (s.blk.optr + BitVec.ofNat 16 (s.emitted w).length).toNat =
      min s.blk.olen.toNat (3 * ((s.blk.iptr + 4#16).toNat / 4)) := by omega
  exact { hinv with
    obufWf := Memory.writeList_wf _ _ hinv.obufWf
    obufBelow := Memory.writeList_below _ _ hinv.obufBelow (.inr (by rw [hcount, State.setBlk_cfg, Config.obufSize]; omega))
    groupErr := fun h => by simp [State.decEmitted, hcode] at h
    encPtrs := fun _ hm => absurd (hmode.symm.trans hm) nofun
    decPtrs := fun _ _ => ⟨hwhole, hle, hptrs'⟩ }

omit hinv in
/-- The error of a bad character leaves the character's index in `ERRIDX` (rule R166). -/
theorem Block.raise_badError_erridx (b : Block) (t : Text) {i : Nat} (hi : i < 2 ^ 16) : (b.raise (badError t i)).erridx.toNat = i := by
  rw [Block.raise_erridx, badError_erridx, BitVec.toNat_ofNat, Nat.mod_eq_of_lt hi]

/-- A DEC_GROUP that fails leaves the index of a character of its own group in `ERRIDX` (rule R35, item 6). -/
theorem State.Inv.failGroup (hrun : s.blk.running) (hmode : s.blk.mode = .dec) (hlt : s.blk.iptr.toNat < s.blk.len.toNat)
    {k : Nat} (hk : k < 4) : (s.setBlk (s.blk.raise (badError s.ibufByte (s.blk.iptr.toNat + k)))).Inv := by
  obtain ⟨hlast, -⟩ := decGroup_inRange hinv hrun hmode hlt
  have hcode : (badError s.ibufByte (s.blk.iptr.toNat + k)).code = 5#3 ∨ (badError s.ibufByte (s.blk.iptr.toNat + k)).code = 4#3 := by
    rw [badError_code]
    split_ifs <;> simp
  have hlen := s.blk.len.isLt
  have hidx := s.blk.raise_badError_erridx s.ibufByte (i := s.blk.iptr.toNat + k) (by omega)
  exact { hinv with
    notReady := fun h => absurd (hrun.1.symm.trans h) nofun
    doneIdle := fun _ => rfl
    errDone := fun _ => ⟨rfl, by rcases hcode with h | h <;> simp [h], rfl⟩
    noErr := nofun
    ecodeLe := by rcases hcode with h | h <;> simp [h]
    issueErr := by rcases hcode with h | h <;> simp [h]
    groupErr := fun _ => ⟨hmode, by rw [State.setBlk_blk, hidx, Block.raise_len]; omega,
      by rw [State.setBlk_blk, hidx, Block.raise_iptr]; omega, by rw [State.setBlk_blk, hidx, Block.raise_iptr]; omega⟩
    encLenOk := nofun
    decLenOk := nofun
    encPtrs := nofun
    decPtrs := nofun
    olenLe := Nat.zero_le _ }

theorem State.Inv.decGrouped (hrun : s.blk.running) (hmode : s.blk.mode = .dec) (hlt : s.blk.iptr.toNat < s.blk.len.toNat) :
    (s.setBlk s.decGrouped).Inv := by
  obtain ⟨-, hb⟩ | ⟨k, hk, -, -, hb⟩ := hinv.decGrouped_cases hrun hmode
  · rw [hb]
    exact hinv.decEmitted hrun hmode hlt _
  · rw [hb]
    exact hinv.failGroup hrun hmode hlt hk

/-! ### The steps of the machine -/

/-- What a step of the core is in a state of the invariant: the block of the one enabled step, on the state with the turn used up. -/
theorem State.Inv.step_core (hcore : nextAgent s = some .core) :
    ∃ b, step s = .next { Machine.spendTurn s with blk := b } ∧
      ((s.blk.tblrdy = false ∧ b = s.blk.init) ∨
       (s.blk.running ∧ s.blk.mode = .enc ∧ s.blk.iptr.toNat < s.blk.len.toNat ∧ b = s.encGrouped) ∨
       (s.blk.running ∧ s.blk.mode = .enc ∧ s.blk.len.toNat ≤ s.blk.iptr.toNat ∧ b = s.encFinished) ∨
       (s.blk.running ∧ s.blk.mode = .dec ∧ s.blk.iptr.toNat < s.blk.len.toNat ∧ b = s.decGrouped) ∨
       (s.blk.running ∧ s.blk.mode = .dec ∧ s.blk.len.toNat ≤ s.blk.iptr.toNat ∧ b = s.blk.complete)) := by
  obtain ⟨k, hk⟩ := nextAgent_core hcore
  obtain ⟨-, hunbuilt⟩ | ⟨hrun, hmode, ⟨-, hlt⟩ | ⟨-, hle⟩⟩ | ⟨hrun, hmode, ⟨-, hlt⟩ | ⟨-, hle⟩⟩ := enabledStep_cases hk
  · exact ⟨_, step_init hunbuilt hcore, .inl ⟨hunbuilt, rfl⟩⟩
  · exact ⟨_, step_encGroup hinv hrun hmode hlt hcore, .inr (.inl ⟨hrun, hmode, hlt, rfl⟩)⟩
  · exact ⟨_, step_encFinish hinv hrun hmode hle hcore, .inr (.inr (.inl ⟨hrun, hmode, hle, rfl⟩))⟩
  · exact ⟨_, step_decGroup hinv hrun hmode hlt hcore, .inr (.inr (.inr (.inl ⟨hrun, hmode, hlt, rfl⟩)))⟩
  · exact ⟨_, decFinishCompletes s hrun hmode hle hcore, .inr (.inr (.inr (.inr ⟨hrun, hmode, hle, rfl⟩)))⟩

/-- A step of the core keeps the invariant. -/
theorem State.Inv.keeps_core {t : State} (hcore : nextAgent s = some .core) (hstep : step s = .next t) : t.Inv := by
  obtain ⟨b, hb, hcases⟩ := hinv.step_core hcore
  obtain rfl := next_eq (hb.symm.trans hstep)
  suffices h : (s.setBlk b).Inv from h.of_blk_eq (spendTurn_cfg s) rfl
  obtain ⟨hunbuilt, rfl⟩ | ⟨hrun, hmode, hlt, rfl⟩ | ⟨hrun, -, -, rfl⟩ | ⟨hrun, hmode, hlt, rfl⟩ | ⟨hrun, -, -, rfl⟩ := hcases
  · exact hinv.init hunbuilt
  · exact hinv.encGrouped hrun hmode hlt
  · exact hinv.encFinished hrun
  · exact hinv.decGrouped hrun hmode hlt
  · exact hinv.complete hrun hinv.obufWf hinv.obufBelow

end Actions

/-- Settles O41: a step is nothing, a core step, or a line of the host on the state with that line taken, and each keeps the invariant. -/
theorem stepKeepsInvariant : Obligations.StepKeepsInvariant := by
  intro s t hinv hstep
  obtain ⟨-, rfl⟩ | ⟨hcore, -⟩ | ⟨l, rest, -, hl⟩ := step_cases hstep
  · exact hinv
  · exact hinv.keeps_core hcore hstep
  · exact (hinv.popped rest).runLine hl

/-- Settles O42: a line of the host always answers a next state, and in the invariant every access of the core lies inside its buffer. -/
theorem noStepFaults : Obligations.NoStepFaults := by
  intro s hinv
  cases hagent : nextAgent s with
  | none => exact ⟨s, by simp [step, act, hagent]⟩
  | some a =>
    cases a with
    | host =>
      obtain ⟨l, rest, hp⟩ := nextAgent_host hagent
      obtain ⟨t, ht⟩ := runLine_total l (s.popped rest)
      exact ⟨t, (step_host ⟨hagent, hp⟩).trans ht⟩
    | core =>
      obtain ⟨b, hb, -⟩ := hinv.step_core hagent
      exact ⟨_, hb⟩

end Sys2Proof.Machine
end

section
/-! PROOF. The machine as a whole: the parameters (00_scope.md, rule R5), the inverse table (44_table_init.md), who writes which buffer and what a busy
core lets the host change (20_memory.md), and who acts next (rule R53). -/

namespace Sys2Proof.Machine

/-! ### What a core step keeps -/

/-- Only INIT, the step of a block without its table, writes the table (44_table_init.md). -/
theorem runStep_table {k : CoreStep} {s t : State} (h : runStep k s = .next t) :
    k = .init ∨ (t.blk.inv = s.blk.inv ∧ t.blk.tblrdy = s.blk.tblrdy) := by
  cases k with
  | init => exact .inl rfl
  | encGroup => obtain ⟨-, -, rfl⟩ := encGroup_next h; exact .inr ⟨rfl, rfl⟩
  | encFinish => obtain ⟨-, -, rfl⟩ := encFinish_next h; exact .inr ⟨rfl, rfl⟩
  | decGroup => obtain ⟨-, -, ⟨e, -, rfl⟩ | ⟨w, -, -, rfl⟩⟩ := decGroup_next h <;> exact .inr ⟨rfl, rfl⟩
  | decFinish => obtain rfl := next_eq h; exact .inr ⟨rfl, rfl⟩

/-! ### What a line of the host keeps -/

/-- Every line but RST keeps the table and OBUF. -/
theorem runLine_keeps {l : HostLine} {s t : State} (h : runLine l s = .next t) :
    (t.blk.inv = s.blk.inv ∧ t.blk.tblrdy = s.blk.tblrdy ∧ t.blk.obuf = s.blk.obuf) ∨ (l = .rst ∧ t.blk = Block.reset) := by
  obtain ⟨-, ⟨-, -, hb | ⟨-, hb⟩ | ⟨-, i, b, -, hb⟩ | ⟨-, -, m, len, e, -, hb⟩ | ⟨-, -, len, -, hb⟩ | ⟨-, -, len, -, -, hb⟩⟩ | hreset⟩ :=
    runLine_blk h
  case inr => exact .inr hreset
  all_goals rw [hb]; exact .inl ⟨rfl, rfl, rfl⟩

/-- While the core is busy a line but RST changes `BSYWR` at most, and raises it (rule R87). -/
theorem runLine_busy {l : HostLine} {s t : State} (h : runLine l s = .next t) (hbusy : s.blk.busy = true) (hl : l ≠ .rst) :
    t.cfg = s.cfg ∧ t.epoch = s.epoch ∧ t.blk = { s.blk with bsywr := t.blk.bsywr } ∧ (s.blk.bsywr = true → t.blk.bsywr = true) := by
  have hnot {p : Prop} (hidle : s.blk.busy = false) : p := absurd (hbusy.symm.trans hidle) nofun
  obtain ⟨hcfg, ⟨-, hepoch, hb | ⟨-, hb⟩ | ⟨hidle, -⟩ | ⟨hidle, -⟩ | ⟨hidle, -⟩ | ⟨hidle, -⟩⟩ | ⟨hrst, -⟩⟩ := runLine_blk h
  · exact ⟨hcfg, hepoch, by rw [hb], by rw [hb]; exact id⟩
  · exact ⟨hcfg, hepoch, by rw [hb]; rfl, fun _ => by rw [hb, Block.dropWrite_bsywr]⟩
  · exact hnot hidle
  · exact hnot hidle
  · exact hnot hidle
  · exact hnot hidle
  · exact absurd hrst hl

/-! ### The steps -/

/-- Settles O5: INIT is not enabled once the table is built, no other core step writes it, and of the host's lines RST alone. -/
theorem tableReadOnlyUntilReset : Obligations.TableReadOnlyUntilReset := by
  intro s t hbuilt hstep
  obtain ⟨-, rfl⟩ | ⟨-, k, hk, hrun⟩ | ⟨l, rest, hacts, hl⟩ := step_cases hstep
  · exact .inl ⟨rfl, hbuilt⟩
  · obtain rfl | ⟨hinv, hready⟩ := runStep_table hrun
    · obtain ⟨-, hunbuilt⟩ | ⟨-, -, ⟨h, -⟩ | ⟨h, -⟩⟩ | ⟨-, -, ⟨h, -⟩ | ⟨h, -⟩⟩ := enabledStep_cases hk
      · exact absurd (hbuilt.symm.trans hunbuilt) nofun
      all_goals cases h
    · rw [spendTurn_blk] at hinv hready
      exact .inl ⟨hinv, hready.trans hbuilt⟩
  · obtain ⟨hinv, hready, -⟩ | ⟨rfl, hreset⟩ := runLine_keeps hl
    · rw [State.popped_blk] at hinv hready
      exact .inl ⟨hinv, hready.trans hbuilt⟩
    · exact .inr ⟨⟨rest, hacts⟩, hreset⟩

/-- Settles O43: a core step changes the block alone, and no line of the host writes the configuration. -/
theorem parametersNeverChange : Obligations.ParametersNeverChange := by
  intro s t hstep
  obtain ⟨-, rfl⟩ | ⟨-, k, -, hrun⟩ | ⟨l, rest, -, hl⟩ := step_cases hstep
  · rfl
  · rw [(runStep_frame hrun).1, State.setBlk_cfg, spendTurn_cfg]
  · exact (runLine_blk hl).1.trans (State.popped_cfg s rest)

/-- Settles O44: no core step writes IBUF, and no line of the host but RST writes OBUF. -/
theorem eachBufferHasOneWriter : Obligations.EachBufferHasOneWriter := by
  intro s t hstep
  obtain ⟨hnone, -⟩ | ⟨hcore, k, -, hrun⟩ | ⟨l, rest, hacts, hl⟩ := step_cases hstep
  · exact ⟨fun h => (nomatch hnone.symm.trans h), fun h => (nomatch hnone.symm.trans h)⟩
  · refine ⟨fun _ => ?_, fun h => (nomatch hcore.symm.trans h)⟩
    rw [(runStep_frame hrun).2, spendTurn_blk]
  · refine ⟨fun h => (nomatch hacts.1.symm.trans h), fun _ => ?_⟩
    obtain ⟨-, -, hobuf⟩ | ⟨rfl, -⟩ := runLine_keeps hl
    · exact .inl (by rw [hobuf, State.popped_blk])
    · exact .inr ⟨rest, hacts⟩

/-- Settles O45: the step is the host's line, which on a busy block changes `BSYWR` at most. -/
theorem runningCommandIgnoresHost : Obligations.RunningCommandIgnoresHost := by
  intro s t hbusy hhost hrst hstep
  obtain ⟨l, rest, hp⟩ := nextAgent_host hhost
  have hl : l ≠ .rst := by rintro rfl; exact hrst rest ⟨hhost, hp⟩
  have hrun := (step_host ⟨hhost, hp⟩).symm.trans hstep
  rw [← State.popped_blk s rest] at hbusy ⊢
  obtain ⟨-, -, hblk⟩ := runLine_busy hrun hbusy hl
  exact hblk

/-! ### Who acts next (rule R53) -/

theorem coreReady_eq (s : State) : coreReady s = (enabledStep s.blk).isSome := rfl

theorem hostReady_of_pending {s : State} {l : HostLine} {rest : List HostLine} (h : s.pending = l :: rest) : hostReady s = true :=
  (hostReady_iff s).mpr ⟨l, rest, h⟩

/-- Where both agents can act the head of `turns` decides, and the core acts when the list is used up. -/
theorem nextAgent_of_both {s : State} (hcore : coreReady s = true) (hhost : hostReady s = true) :
    nextAgent s = some (s.turns.headD .core) := by
  rw [nextAgent, hcore, hhost]
  rfl

/-- Where the core has no step the host's next line is carried out. -/
theorem hostActs_of_core_idle {s : State} {l : HostLine} {rest : List HostLine} (hcore : enabledStep s.blk = none)
    (hp : s.pending = l :: rest) : s.hostActs l rest := by
  refine ⟨?_, hp⟩
  rw [nextAgent, coreReady_eq, hcore, hostReady_of_pending hp]
  rfl

/-- Settles O46: neither agent can act, so the step answers the state itself. -/
theorem quiescentMachineStays : Obligations.QuiescentMachineStays := by
  intro s hcore hp
  have hnone : nextAgent s = none := by rw [nextAgent_of_no_pending hp, hcore]; rfl
  simp [step, act, hnone]

/-- Settles O47: changing `turns` leaves both agents ready, and its head decides. -/
theorem eitherAgentMayGoFirst : Obligations.EitherAgentMayGoFirst := by
  intro s l rest hp hk
  have hcore : coreReady s = true := by rw [coreReady_eq, Option.isSome_iff_ne_none]; exact hk
  have hhost : hostReady s = true := hostReady_of_pending hp
  exact ⟨fun _ => nextAgent_of_both hcore hhost, fun _ => nextAgent_of_both hcore hhost, nextAgent_of_both hcore hhost⟩

end Sys2Proof.Machine
end

section
/-! PROOF. The laws of 41_datapath_primitives.md between the datapath functions: the alphabet and its inverse table (rules R100, R111), a group value
and its slices (rules R106, R107, R113). -/

namespace Sys2Proof.Machine

/-! ### The alphabet and its inverse -/

/-- Settles O4: a finite table, compared entry by entry. -/
theorem inverseTableByRanges : Obligations.InverseTableByRanges := by
  unfold Obligations.InverseTableByRanges
  decide

/-- A byte with a valid entry is the character of that entry's sextet (rule R111). -/
theorem sx2ch_val_invOf {c : Byte} (h : (invOf c).v = true) : sx2ch (invOf c).val = c := by
  revert c
  decide

theorem sx2ch_ne_pad (k : Sextet) : sx2ch k ≠ pad := by
  revert k
  decide

/-- The bytes with a valid entry are the characters of the alphabet (rule R111). -/
theorem invOf_v_iff (c : Byte) : (invOf c).v = true ↔ ∃ k : Sextet, sx2ch k = c := by
  refine ⟨fun h => ⟨_, sx2ch_val_invOf h⟩, ?_⟩
  rintro ⟨k, rfl⟩
  rw [invOf_sx2ch]

/-- Settles O6: a sextet's character has that sextet as its entry, a valid entry's character is the byte itself, and PAD is no character. -/
theorem alphabetAndTableInverse : Obligations.AlphabetAndTableInverse := by
  refine ⟨invOf_sx2ch, fun c k h => ?_, sx2ch_ne_pad⟩
  have hchar := sx2ch_val_invOf (c := c) (by rw [h])
  rwa [h] at hchar

/-! ### A group value and its slices -/

/-- A sextet of a group value as a digit to the base 64 (rule R107). -/
theorem sxt_toNat_eq (w : Group) (k : Fin 4) : (sxt w k).toNat = w.toNat / 2 ^ (18 - 6 * k.val) % 64 := by
  rw [sxt, BitVec.extractLsb'_toNat, Nat.shiftRight_eq_div_pow]

/-- An octet of a group value as a digit to the base 256 (rule R113). -/
theorem oct_toNat_eq (w : Group) (j : Fin 3) : (oct w j).toNat = w.toNat / 2 ^ (16 - 8 * j.val) % 256 := by
  rw [oct, BitVec.extractLsb'_toNat, Nat.shiftRight_eq_div_pow]

theorem sxt_digits (w : Group) : (sxt w 0).toNat = w.toNat / 2 ^ 18 % 64 ∧ (sxt w 1).toNat = w.toNat / 2 ^ 12 % 64 ∧
    (sxt w 2).toNat = w.toNat / 2 ^ 6 % 64 ∧ (sxt w 3).toNat = w.toNat / 2 ^ 0 % 64 :=
  ⟨sxt_toNat_eq w 0, sxt_toNat_eq w 1, sxt_toNat_eq w 2, sxt_toNat_eq w 3⟩

theorem oct_digits (w : Group) : (oct w 0).toNat = w.toNat / 2 ^ 16 % 256 ∧ (oct w 1).toNat = w.toNat / 2 ^ 8 % 256 ∧
    (oct w 2).toNat = w.toNat / 2 ^ 0 % 256 :=
  ⟨oct_toNat_eq w 0, oct_toNat_eq w 1, oct_toNat_eq w 2⟩

theorem join4_sxt (w : Group) : join4 (sxt w 0) (sxt w 1) (sxt w 2) (sxt w 3) = w := by
  obtain ⟨h0, h1, h2, h3⟩ := sxt_digits w
  apply BitVec.eq_of_toNat_eq
  rw [join4_toNat, h0, h1, h2, h3]
  omega

theorem oct_pack3 (a b c : Byte) : oct (pack3 a b c) 0 = a ∧ oct (pack3 a b c) 1 = b ∧ oct (pack3 a b c) 2 = c := by
  obtain ⟨h0, h1, h2⟩ := oct_digits (pack3 a b c)
  rw [pack3_toNat] at h0 h1 h2
  refine ⟨BitVec.eq_of_toNat_eq ?_, BitVec.eq_of_toNat_eq ?_, BitVec.eq_of_toNat_eq ?_⟩ <;> omega

theorem sxt_join4 (s0 s1 s2 s3 : Sextet) : sxt (join4 s0 s1 s2 s3) 0 = s0 ∧ sxt (join4 s0 s1 s2 s3) 1 = s1 ∧
    sxt (join4 s0 s1 s2 s3) 2 = s2 ∧ sxt (join4 s0 s1 s2 s3) 3 = s3 := by
  obtain ⟨h0, h1, h2, h3⟩ := sxt_digits (join4 s0 s1 s2 s3)
  rw [join4_toNat] at h0 h1 h2 h3
  refine ⟨BitVec.eq_of_toNat_eq ?_, BitVec.eq_of_toNat_eq ?_, BitVec.eq_of_toNat_eq ?_, BitVec.eq_of_toNat_eq ?_⟩ <;> omega

/-- Settles O8: each slice is the digit that the packing put there. -/
theorem groupSplitAndJoinInverse : Obligations.GroupSplitAndJoinInverse := ⟨join4_sxt, oct_pack3, sxt_join4⟩

end Sys2Proof.Machine
end

section
/-! PROOF. Texts as functions of the index: the text format (rule R68) and the bad indices (rule R140), the text that ENC makes (rule R123), the round
trip, and the unused bits that a decode drops (rule R142). -/

namespace Sys2Proof.Machine

/-! ### Well-formed texts and bad indices -/

theorem padLegal_eq_true_iff (t : Text) (n i : Nat) : padLegal t n i = true ↔ i + 1 = n ∨ (i + 2 = n ∧ t (n - 1) = pad) := by
  simp only [padLegal, Bool.or_eq_true, Bool.and_eq_true, beq_iff_eq]

/-- A character that is not bad is a pad at a legal place or a character of the alphabet (rule R140). -/
theorem not_badIndex_iff (t : Text) (n i : Nat) : ¬ badIndex t n i ↔
    (t i = pad ∧ (i + 1 = n ∨ (i + 2 = n ∧ t (n - 1) = pad))) ∨ (t i ≠ pad ∧ ∃ k : Sextet, sx2ch k = t i) := by
  rw [badIndex, ← padLegal_eq_true_iff, ← invOf_v_iff]
  by_cases hpad : t i = pad <;> simp [hpad]

/-- Settles O51: at each index the format asks that a pad stands at a legal place and that any other byte is in the alphabet. -/
theorem wellFormedIffNoBadIndex : Obligations.WellFormedIffNoBadIndex := by
  intro t n hn
  simp only [not_badIndex_iff]
  constructor
  · rintro ⟨-, hchar, hplace⟩ i hi
    by_cases hpad : t i = pad
    · exact .inl ⟨hpad, hplace i hi hpad⟩
    · exact .inr ⟨hpad, (hchar i hi).resolve_left hpad⟩
  · intro hgood
    refine ⟨hn, fun i hi => ?_, fun i hi hpad => ?_⟩
    · exact (hgood i hi).imp And.left And.right
    · exact (hgood i hi).elim And.right fun h => absurd hpad h.1

/-! ### Texts that agree below their length -/

section Agree

variable {t u : Text} {n : Nat} (h : ∀ i < n, u i = t i)
include h

theorem badIndex_congr {i : Nat} (hi : i < n) : badIndex u n i ↔ badIndex t n i := by
  rw [badIndex, badIndex, padLegal, padLegal, h i hi, h (n - 1) (by omega)]

theorem decPad_congr : decPad u n = decPad t n := by
  rcases Nat.eq_zero_or_pos n with rfl | hpos
  · rfl
  · rw [decPad, decPad, h (n - 1) (by omega), h (n - 2) (by omega)]

theorem decLen_congr : decLen u n = decLen t n := by rw [decLen, decLen, decPad_congr h]

theorem textSextet_congr {i : Nat} (hi : i < n) : textSextet u i = textSextet t i := by rw [textSextet, textSextet, h i hi]

theorem textGroup_congr {j : Nat} (hj : 4 * j + 3 < n) : textGroup u j = textGroup t j := by
  rw [textGroup, textGroup, textSextet_congr h (by omega), textSextet_congr h (by omega), textSextet_congr h (by omega),
    textSextet_congr h hj]

/-- A decoded byte is made of a group that lies below the length (rule R139). -/
theorem decByte_congr {i : Nat} (hi : i < decLen t n) : decByte u i = decByte t i := by
  have hle := decLen_le t n
  rw [decByte, decByte, textGroup_congr h (by omega)]

theorem wellFormedText_congr (hwf : wellFormedText t n) : wellFormedText u n :=
  (wellFormedIffNoBadIndex u n hwf.1).mpr fun i hi => by
    rw [badIndex_congr h hi]
    exact (wellFormedIffNoBadIndex t n hwf.1).mp hwf i hi

end Agree

/-! ### The text that ENC makes (rule R123) -/

/-- The group value of input bytes `3 * g` to `3 * g + 2`, with zero bytes past the end (rules R106, R121). -/
def inputGroup (t : Text) (n g : Nat) : Group :=
  pack3 (zeroFilled t n (3 * g)) (zeroFilled t n (3 * g + 1)) (zeroFilled t n (3 * g + 2))

theorem encChar_eq (t : Text) (n j : Nat) :
    encChar t n j = sx2ch (sxt (inputGroup t n (j / 4)) ⟨j % 4, Nat.mod_lt j (by decide)⟩) := by
  have hget (w : Group) (k : Fin 4) :
      (#v[sx2ch (sxt w 0), sx2ch (sxt w 1), sx2ch (sxt w 2), sx2ch (sxt w 3)] : Vector Byte 4).get k = sx2ch (sxt w k) := by
    fin_cases k <;> rfl
  exact hget _ _

theorem encText_eq_pad_iff (t : Text) (n j : Nat) : encText t n j = pad ↔ encLen n - padCount n ≤ j := by
  rw [encText]
  split_ifs with h
  · rw [encChar_eq]
    exact iff_of_false (sx2ch_ne_pad _) (Nat.not_le.mpr h)
  · exact iff_of_true rfl (Nat.not_lt.mp h)

/-- The octets of an input group are its bytes, 0 past the end. -/
theorem oct_inputGroup (t : Text) (n g : Nat) (k : Fin 3) : oct (inputGroup t n g) k = zeroFilled t n (3 * g + k.val) := by
  obtain ⟨h0, h1, h2⟩ := oct_pack3 (zeroFilled t n (3 * g)) (zeroFilled t n (3 * g + 1)) (zeroFilled t n (3 * g + 2))
  fin_cases k
  · exact h0
  · exact h1
  · exact h2

/-- Without its third byte the low 8 bits of an input group are 0. -/
theorem inputGroup_mod_of_two_bytes (t : Text) {n g : Nat} (h : n ≤ 3 * g + 2) : (inputGroup t n g).toNat % 2 ^ 8 = 0 := by
  have hthird : zeroFilled t n (3 * g + 2) = 0#8 := if_neg (Nat.not_lt.mpr h)
  rw [inputGroup, hthird, pack3_toNat, BitVec.toNat_ofNat]
  omega

/-- Without its second and third byte the low 16 bits of an input group are 0. -/
theorem inputGroup_mod_of_one_byte (t : Text) {n g : Nat} (h : n ≤ 3 * g + 1) : (inputGroup t n g).toNat % 2 ^ 16 = 0 := by
  have hsecond : zeroFilled t n (3 * g + 1) = 0#8 := if_neg (Nat.not_lt.mpr h)
  have hthird : zeroFilled t n (3 * g + 2) = 0#8 := if_neg (by omega)
  rw [inputGroup, hsecond, hthird, pack3_toNat, BitVec.toNat_ofNat]
  omega

/-- The sextet at every index of the text, pads included: the input bytes past the end are 0, and so are the sextets where a pad stands. -/
theorem textSextet_encText (t : Text) {n j : Nat} (hj : j < encLen n) :
    textSextet (encText t n) j = sxt (inputGroup t n (j / 4)) ⟨j % 4, Nat.mod_lt j (by decide)⟩ := by
  rw [textSextet]
  split_ifs with hpad
  case neg =>
    rw [encText_eq_pad_iff, Nat.not_le] at hpad
    rw [encText, if_pos hpad, encChar_eq, invOf_sx2ch]
  case pos =>
    rw [encText_eq_pad_iff] at hpad
    have hfill := padCount_add n
    have hpads := padCount_le n
    rw [encLen] at hj hpad
    obtain ⟨-, -, h2, h3⟩ := sxt_digits (inputGroup t n (j / 4))
    have hlow := inputGroup_mod_of_two_bytes t (n := n) (g := j / 4) (by omega)
    apply BitVec.eq_of_toNat_eq
    obtain hj4 | ⟨hj4, hp⟩ : j % 4 = 3 ∨ (j % 4 = 2 ∧ padCount n = 2) := by omega
    · simp only [hj4]
      exact (by omega : 0 = _).trans h3.symm
    · have hlow2 := inputGroup_mod_of_one_byte t (n := n) (g := j / 4) (by omega)
      simp only [hj4]
      exact (by omega : 0 = _).trans h2.symm

/-- The groups of the text are the groups of the input (rules R139, R123). -/
theorem textGroup_encText (t : Text) {n g : Nat} (hg : 4 * g + 3 < encLen n) : textGroup (encText t n) g = inputGroup t n g := by
  have hsextet (k : Fin 4) : textSextet (encText t n) (4 * g + k.val) = sxt (inputGroup t n g) k := by
    have hgroup : (4 * g + k.val) / 4 = g := by omega
    have hplace : (⟨(4 * g + k.val) % 4, Nat.mod_lt _ (by decide)⟩ : Fin 4) = k := Fin.ext (by simp only; omega)
    rw [textSextet_encText t (by omega), hplace, hgroup]
  rw [textGroup, ← join4_sxt (inputGroup t n g), ← hsextet 0, ← hsextet 1, ← hsextet 2, ← hsextet 3]
  rfl

theorem wellFormedText_encText (t : Text) (n : Nat) : wellFormedText (encText t n) (encLen n) := by
  have hpads := padCount_le n
  have hmod := encLen_mod_four n
  refine (wellFormedIffNoBadIndex _ _ hmod).mpr fun i hi => (not_badIndex_iff _ _ _).mpr ?_
  by_cases hpad : encText t n i = pad
  · refine .inl ⟨hpad, ?_⟩
    rw [encText_eq_pad_iff] at hpad ⊢
    omega
  · refine .inr ⟨hpad, ?_⟩
    rw [encText_eq_pad_iff, Nat.not_le] at hpad
    exact ⟨_, (encChar_eq t n i).symm.trans (if_pos hpad).symm⟩

/-- Settles O52: the pads are the last indices by definition, and before them the bits of the missing input bytes are 0. -/
theorem encTextLaws : Obligations.EncTextLaws := by
  intro t n
  refine ⟨wellFormedText_encText t n, fun j _ => encText_eq_pad_iff t n j, fun hn => ?one, fun hn => ?two⟩
  case one =>
    obtain ⟨-, h1, -, -⟩ := sxt_digits (inputGroup t n (n / 3))
    have hlow := inputGroup_mod_of_one_byte t (n := n) (g := n / 3) (by omega)
    have hindex : encLen n - 3 = 4 * (n / 3) + 1 := by rw [encLen]; omega
    have hgroup : (4 * (n / 3) + 1) / 4 = n / 3 := by omega
    have hplace : (4 * (n / 3) + 1) % 4 = 1 := by omega
    rw [hindex, textSextet_encText t (by rw [encLen]; omega), hgroup]
    simp only [hplace]
    exact (congrArg (· % 16) h1).trans (by omega)
  case two =>
    obtain ⟨-, -, h2, -⟩ := sxt_digits (inputGroup t n (n / 3))
    have hlow := inputGroup_mod_of_two_bytes t (n := n) (g := n / 3) (by omega)
    have hindex : encLen n - 2 = 4 * (n / 3) + 2 := by rw [encLen]; omega
    have hgroup : (4 * (n / 3) + 2) / 4 = n / 3 := by omega
    have hplace : (4 * (n / 3) + 2) % 4 = 2 := by omega
    rw [hindex, textSextet_encText t (by rw [encLen]; omega), hgroup]
    simp only [hplace]
    exact (congrArg (· % 4) h2).trans (by omega)

/-! ### The round trip -/

/-- The pads of the text are those that its length asks for (rules R102, R114). -/
theorem decPad_encText (t : Text) (n : Nat) : decPad (encText t n) (encLen n) = padCount n := by
  have hfill := padCount_add n
  have hle := padCount_le_encLen n
  have hpads := padCount_le n
  have hlast := encText_eq_pad_iff t n (encLen n - 1)
  have hprev := encText_eq_pad_iff t n (encLen n - 2)
  have hlen : encLen n = 4 * ((n + 2) / 3) := rfl
  simp only [decPad, ne_eq, hlast, hprev]
  split_ifs <;> omega

theorem decLen_encText (t : Text) (n : Nat) : decLen (encText t n) (encLen n) = n := by
  have hfill := padCount_add n
  have hsum := decLen_add_decPad (t := encText t n) (encLen_mod_four n)
  have hlen : encLen n = 4 * ((n + 2) / 3) := rfl
  rw [decPad_encText] at hsum
  omega

/-- A byte of a decoded text is an octet of its group (rule R139). -/
theorem decByte_at (t : Text) (g : Nat) (k : Fin 3) : decByte t (3 * g + k.val) = oct (textGroup t g) k := by
  have hgroup : (3 * g + k.val) / 3 = g := by omega
  have hplace : (⟨(3 * g + k.val) % 3, Nat.mod_lt _ (by decide)⟩ : Fin 3) = k := Fin.ext (by simp only; omega)
  rw [decByte, hplace, hgroup]

/-- Every index is a place in a group of three. -/
theorem exists_group_place (i : Nat) : ∃ (g : Nat) (k : Fin 3), i = 3 * g + k.val :=
  ⟨i / 3, ⟨i % 3, Nat.mod_lt i (by decide)⟩, (Nat.div_add_mod i 3).symm⟩

theorem decByte_encText (t : Text) {n i : Nat} (hi : i < n) : decByte (encText t n) i = t i := by
  obtain ⟨g, k, rfl⟩ := exists_group_place i
  have hin : 4 * g + 3 < encLen n := by rw [encLen]; omega
  rw [decByte_at, textGroup_encText t hin, oct_inputGroup, zeroFilled, if_pos hi]

/-- Settles O53: the text has the pads that complete the input's last group, and its groups are the input's. -/
theorem encodedTextDecodesToInput : Obligations.EncodedTextDecodesToInput := fun t n =>
  ⟨decLen_encText t n, fun _ => decByte_encText t⟩

/-! ### Unused bits (rule R142) -/

/-- The first octet of a group is its first sextet and bits 5:4 of its second (rule R113). -/
theorem oct_join4_zero_congr {s0 s1 s2 s3 r1 r2 r3 : Sextet} (h : r1.extractLsb' 4 2 = s1.extractLsb' 4 2) :
    oct (join4 s0 r1 r2 r3) 0 = oct (join4 s0 s1 s2 s3) 0 := by
  have hbits := congrArg BitVec.toNat h
  simp only [BitVec.extractLsb'_toNat, Nat.shiftRight_eq_div_pow] at hbits
  apply BitVec.eq_of_toNat_eq
  rw [(oct_digits _).1, (oct_digits _).1, join4_toNat, join4_toNat]
  omega

/-- The second octet of a group is bits 3:0 of its second sextet and bits 5:2 of its third (rule R113). -/
theorem oct_join4_one_congr {s0 s1 s2 s3 r0 r2 r3 : Sextet} (h : r2.extractLsb' 2 4 = s2.extractLsb' 2 4) :
    oct (join4 r0 s1 r2 r3) 1 = oct (join4 s0 s1 s2 s3) 1 := by
  have hbits := congrArg BitVec.toNat h
  simp only [BitVec.extractLsb'_toNat, Nat.shiftRight_eq_div_pow] at hbits
  apply BitVec.eq_of_toNat_eq
  rw [(oct_digits _).2.1, (oct_digits _).2.1, join4_toNat, join4_toNat]
  omega

section Group

variable {t u : Text} {g : Nat}

/-- The first byte of a group depends on its first character and on the kept bits of its second. -/
theorem decByte_first_congr (h0 : u (4 * g) = t (4 * g))
    (h1 : (textSextet u (4 * g + 1)).extractLsb' 4 2 = (textSextet t (4 * g + 1)).extractLsb' 4 2) :
    decByte u (3 * g + (0 : Fin 3).val) = decByte t (3 * g + (0 : Fin 3).val) := by
  have hfirst : textSextet u (4 * g) = textSextet t (4 * g) := by rw [textSextet, textSextet, h0]
  rw [decByte_at, decByte_at, textGroup, textGroup, hfirst]
  exact oct_join4_zero_congr h1

/-- The second byte of a group depends on its second character and on the kept bits of its third. -/
theorem decByte_second_congr (h1 : u (4 * g + 1) = t (4 * g + 1))
    (h2 : (textSextet u (4 * g + 2)).extractLsb' 2 4 = (textSextet t (4 * g + 2)).extractLsb' 2 4) :
    decByte u (3 * g + (1 : Fin 3).val) = decByte t (3 * g + (1 : Fin 3).val) := by
  have hsecond : textSextet u (4 * g + 1) = textSextet t (4 * g + 1) := by rw [textSextet, textSextet, h1]
  rw [decByte_at, decByte_at, textGroup, textGroup, hsecond]
  exact oct_join4_one_congr h2

end Group

section Pads

variable {t u : Text} {g : Nat}

/-- The output length of a text that ends in two pads (rule R114). -/
theorem decLen_of_two_pads (hlast : t (4 * g + 3) = pad) (hprev : t (4 * g + 2) = pad) : decLen t (4 * g + 4) = 3 * g + 1 := by
  have hpads : decPad t (4 * g + 4) = 2 := (decPad_of_last_eq_pad (Nat.succ_pos _) hlast).trans (if_neg (not_not_intro hprev))
  rw [decLen, hpads]
  omega

/-- The output length of a text that ends in one pad (rule R114). -/
theorem decLen_of_one_pad (hlast : t (4 * g + 3) = pad) (hprev : t (4 * g + 2) ≠ pad) : decLen t (4 * g + 4) = 3 * g + 2 := by
  have hpads : decPad t (4 * g + 4) = 1 := (decPad_of_last_eq_pad (Nat.succ_pos _) hlast).trans (if_pos hprev)
  rw [decLen, hpads]
  omega

/-- Another alphabet character before the last index keeps a text well-formed (rule R68). -/
theorem wellFormedText_of_changed {n m : Nat} (hwf : wellFormedText t n) (hm : m + 1 < n) (hsame : ∀ i < n, i ≠ m → u i = t i)
    (hchar : ∃ k : Sextet, sx2ch k = u m) : wellFormedText u n := by
  obtain ⟨hmod, hchars, hplaces⟩ := hwf
  refine ⟨hmod, fun i hi => ?_, fun i hi hpad => ?_⟩
  · by_cases him : i = m
    · exact .inr (him ▸ hchar)
    · rw [hsame i hi him]
      exact hchars i hi
  · have him : i ≠ m := by
      rintro rfl
      obtain ⟨k, hk⟩ := hchar
      exact sx2ch_ne_pad k (hk.trans hpad)
    rw [hsame i hi him] at hpad
    rw [hsame (n - 1) (by omega) (by omega)]
    exact hplaces i hi hpad

/-- The bytes of the groups before the last are the same when the characters below it are. -/
theorem decByte_of_earlier_group (hsame : ∀ i < 4 * g, u i = t i) {i : Nat} (hi : i < 3 * g) : decByte u i = decByte t i := by
  rw [decByte, decByte, textGroup_congr hsame (by omega)]

/-- A text with two pads whose last data character changed in its low 4 bits (rule R142). -/
theorem unusedBits_of_two_pads (hwf : wellFormedText t (4 * g + 4)) (hlast : t (4 * g + 3) = pad) (hprev : t (4 * g + 2) = pad)
    (hsame : ∀ i < 4 * g + 4, i ≠ 4 * g + 1 → u i = t i) (hchar : ∃ k : Sextet, sx2ch k = u (4 * g + 1))
    (hbits : (textSextet u (4 * g + 1)).extractLsb' 4 2 = (textSextet t (4 * g + 1)).extractLsb' 4 2) :
    wellFormedText u (4 * g + 4) ∧ decLen u (4 * g + 4) = decLen t (4 * g + 4) ∧
      ∀ i < decLen t (4 * g + 4), decByte u i = decByte t i := by
  have hlen := decLen_of_two_pads hlast hprev
  refine ⟨wellFormedText_of_changed hwf (by omega) hsame hchar, ?length, fun i hi => ?bytes⟩
  case length =>
    rw [hlen]
    exact decLen_of_two_pads (by rw [hsame _ (by omega) (by omega), hlast]) (by rw [hsame _ (by omega) (by omega), hprev])
  case bytes =>
    obtain hearlier | rfl : i < 3 * g ∨ i = 3 * g := by omega
    · exact decByte_of_earlier_group (fun j hj => hsame j (by omega) (by omega)) hearlier
    · exact decByte_first_congr (hsame _ (by omega) (by omega)) hbits

/-- A text with one pad whose last data character changed in its low 2 bits (rule R142). -/
theorem unusedBits_of_one_pad (hwf : wellFormedText t (4 * g + 4)) (hlast : t (4 * g + 3) = pad) (hprev : t (4 * g + 2) ≠ pad)
    (hsame : ∀ i < 4 * g + 4, i ≠ 4 * g + 2 → u i = t i) (hchar : ∃ k : Sextet, sx2ch k = u (4 * g + 2))
    (hbits : (textSextet u (4 * g + 2)).extractLsb' 2 4 = (textSextet t (4 * g + 2)).extractLsb' 2 4) :
    wellFormedText u (4 * g + 4) ∧ decLen u (4 * g + 4) = decLen t (4 * g + 4) ∧
      ∀ i < decLen t (4 * g + 4), decByte u i = decByte t i := by
  have hlen := decLen_of_one_pad hlast hprev
  have hzero : u (4 * g) = t (4 * g) := hsame _ (by omega) (by omega)
  have hone : u (4 * g + 1) = t (4 * g + 1) := hsame _ (by omega) (by omega)
  refine ⟨wellFormedText_of_changed hwf (by omega) hsame hchar, ?length, fun i hi => ?bytes⟩
  case length =>
    obtain ⟨k, hk⟩ := hchar
    rw [hlen]
    exact decLen_of_one_pad (by rw [hsame _ (by omega) (by omega), hlast]) (hk ▸ sx2ch_ne_pad k)
  case bytes =>
    obtain hearlier | rfl | rfl : i < 3 * g ∨ i = 3 * g ∨ i = 3 * g + 1 := by omega
    · exact decByte_of_earlier_group (fun j hj => hsame j (by omega) (by omega)) hearlier
    · exact decByte_first_congr hzero (by rw [textSextet, textSextet, hone])
    · exact decByte_second_congr hone hbits

/-- The unused bits of a well-formed text change neither that it is well-formed nor what it decodes to (rule R142). -/
theorem unusedBits_ignored {n : Nat} (hwf : wellFormedText t n) (hdiff : differsInUnusedBits t u n) :
    wellFormedText u n ∧ decLen u n = decLen t n ∧ ∀ i < decLen t n, decByte u i = decByte t i := by
  obtain ⟨hpos, hlast, hcase⟩ := hdiff
  obtain ⟨g, rfl⟩ : ∃ g, n = 4 * g + 4 := ⟨n / 4 - 1, by have := hwf.1; omega⟩
  obtain ⟨hprev, hsame, hchar, hbits⟩ | ⟨hprev, hsame, hchar, hbits⟩ := hcase
  · exact unusedBits_of_two_pads hwf hlast hprev hsame hchar hbits
  · exact unusedBits_of_one_pad hwf hlast hprev hsame hchar hbits

end Pads

end Sys2Proof.Machine
end

section
/-! PROOF. The issue of ENC and DEC as instructions (42_encode.md and 43_decode.md, ISSUE; rules R86, R87): from the host's line to `exec`, the accepted
commands with their whole next state, what an issue leaves unchanged, and what CSR 0 reads back. -/

namespace Sys2Proof.Machine

/-! ### From the host's line to `exec` -/

/-- Settles O14: the host's line is a write to CSR 0, and the decoder's answer is the instruction. -/
theorem stepRunsDecodedCommand : Obligations.StepRunsDecodedCommand := fun _ _ _ _ hacts hi =>
  (step_host hacts).trans (hwcsr_zero_of_decode_ok hi _)

theorem decode_tableWord_of_decodeTableWord {nbits w : Nat} {i : Instr} (h : decodeTableWord nbits w = some i) :
    decode (tableWord nbits w) = .ok i := by
  unfold decodeTableWord at h
  split at h
  · next hj => obtain rfl := Option.some.inj h; exact hj
  · cases h

/-- A placed command finds the core with nothing to do, so no turn is used up before it (log entry 8). -/
theorem enabledStep_placeCommand (w : Word) (s : State) : enabledStep (placeCommand w s).blk = none := by
  have hbuilt : (placeCommand w s).blk.tblrdy = true := by
    cases h : s.blk.tblrdy <;> simp [placeCommand, h]
  have hidle : (placeCommand w s).blk.busy = false := rfl
  simp [enabledStep, hbuilt, hidle]

/-- A turn is used up only where the core has a step. -/
theorem spendTurn_of_core_idle {s : State} (h : enabledStep s.blk = none) : spendTurn s = s := by
  rw [spendTurn, coreReady_eq, h]
  rfl

/-- Settles O15: the core is idle, so the host acts, and its line is the placed word. -/
theorem placedCommandRunsNext : Obligations.PlacedCommandRunsNext := by
  intro s nbits w i hi
  have hcore := enabledStep_placeCommand (tableWord nbits w) s
  have hacts : (s.withFetchWord nbits w).hostActs (.wcsr 0#3 (tableWord nbits w)) s.pending := hostActs_of_core_idle hcore rfl
  rw [stepRunsDecodedCommand _ _ _ _ hacts (decode_tableWord_of_decodeTableWord hi), State.popped]
  exact congrArg (fun t : State => exec i { t with pending := s.pending }) (spendTurn_of_core_idle hcore)

/-! ### Accepted and dropped commands -/

theorem exec_enc_accepted {s : State} {len : Half} (hidle : s.blk.busy = false) (hlen : len.toNat ≤ s.cfg.encSize) :
    exec (.enc len) s = .next (s.setBlk ((s.blk.latch .enc len).accept (encLen len.toNat))) := by
  rw [exec_enc_idle len hidle, if_neg (Nat.not_lt.mpr hlen)]

theorem exec_dec_accepted {s : State} {len : Half} (hidle : s.blk.busy = false) (hlen : len.toNat ≤ s.cfg.decSize)
    (hmod : len.toNat % 4 = 0) :
    exec (.dec len) s = .next (s.setBlk ((s.blk.latch .dec len).accept (decLen s.ibufByte len.toNat))) := by
  rw [exec_dec_idle len hidle, if_neg (Nat.not_lt.mpr hlen), if_neg (not_not_intro hmod)]

/-- Settles O16: the length passes validation, so the latched command is accepted. -/
theorem encIssueAccepted : Obligations.EncIssueAccepted := fun _ _ => exec_enc_accepted

/-- Settles O17: both tests of the length pass, so the latched command is accepted. -/
theorem decIssueAccepted : Obligations.DecIssueAccepted := fun _ _ => exec_dec_accepted

/-- Settles O23: `exec` is a write to CSR 0, which the busy core drops. -/
theorem commandWhileBusyDropped : Obligations.CommandWhileBusyDropped := fun i _ => exec_busy i

/-! ### What an issue leaves unchanged -/

/-- No issue, accepted, failed or dropped, writes a buffer or the table (40_host_transactions.md, section 2). -/
theorem exec_keeps {i : Instr} {s t : State} (h : exec i s = .next t) :
    t.blk.ibuf = s.blk.ibuf ∧ t.blk.obuf = s.blk.obuf ∧ t.blk.inv = s.blk.inv ∧ t.blk.tblrdy = s.blk.tblrdy := by
  obtain ⟨-, ⟨-, hb⟩ | ⟨-, m, len, hb | hb | ⟨-, -, hb⟩ | ⟨-, -, -, hb⟩⟩⟩ := exec_next h
  all_goals rw [hb]; exact ⟨rfl, rfl, rfl, rfl⟩

/-- Settles O24: an issue replaces the block alone, and keeps the buffers, the table and `TBLRDY`. -/
theorem issueFrame : Obligations.IssueFrame := by
  intro i s t h
  obtain ⟨hibuf, hobuf, hinv, hready⟩ := exec_keeps h
  obtain ⟨ht, -⟩ := exec_next h
  have hepoch : t.epoch = s.epoch := by rw [ht, State.setBlk_epoch]
  exact ⟨ht, hinv, hready, fun x => ⟨by rw [hibuf], congrFun (State.ibufByte_congr hibuf hepoch) x⟩,
    fun x => ⟨by rw [hobuf], congrFun (State.obufByte_congr hobuf hepoch) x⟩⟩

/-! ### CSR 0 after an issue -/

/-- Under the mask of MODE and LEN a word loses its reserved bits (rule R26). -/
theorem and_cmdMask_eq (w : Word) : w &&& 0x0001FFFF#32 = 0#15 ++ BitVec.ofBool (wordModeBit w) ++ wordLen w := by
  have hmask : 0x0001FFFF#32 = 0#15 ++ BitVec.allOnes 1 ++ BitVec.allOnes 16 := by decide
  rw [hmask]
  conv_lhs => rw [word_eq_fields w]
  rw [BitVec.and_append, BitVec.and_append, BitVec.and_allOnes, BitVec.and_allOnes, BitVec.and_zero]

theorem bit_modeOfBit (b : Bool) : (modeOfBit b).bit = BitVec.ofBool b := by cases b <;> rfl

/-- Whatever validation finds, CMD holds the word's MODE and LEN (rules R26, R86). -/
theorem cmdWord_issued (s : State) (w : Word) : cmdWord (s.issued w) = w &&& 0x0001FFFF#32 := by
  have hmode : (s.issued w).mode = modeOfBit (wordModeBit w) := congrArg Block.mode (issued_eq_latchWord s w)
  have hlen : (s.issued w).len = wordLen w := congrArg Block.len (issued_eq_latchWord s w)
  rw [cmdWord, hmode, hlen, bit_modeOfBit, and_cmdMask_eq]

/-- Settles O25: the step leaves the issued block, whose CMD is the word under the mask. -/
theorem commandReadsBack : Obligations.CommandReadsBack := by
  intro s t w rest hacts hidle hstep
  obtain rfl := next_eq ((step_wcsr_zero_idle hacts hidle).symm.trans hstep)
  exact cmdWord_issued s w

/-! ### The issue starts the command -/

theorem encProgress_of_accepted {s : State} (hready : s.blk.tblrdy = true) (len : Half) :
    (s.setBlk ((s.blk.latch .enc len).accept (encLen len.toNat))).EncProgress s.ibufByte len.toNat where
  running := ⟨hready, rfl⟩
  mode := rfl
  len := rfl
  input _ _ := rfl
  output _ h := absurd h (Nat.not_lt_zero _)

theorem decProgress_of_accepted {s : State} (hready : s.blk.tblrdy = true) {len : Half} (hcfg : s.cfg.wf)
    (hlen : len.toNat ≤ s.cfg.decSize) :
    (s.setBlk ((s.blk.latch .dec len).accept (decLen s.ibufByte len.toNat))).DecProgress s.ibufByte len.toNat where
  running := ⟨hready, rfl⟩
  mode := rfl
  len := rfl
  olen := toNat_ofNat_of_le_decSize hcfg (decLen_le_decSize hlen)
  input _ _ := rfl
  good _ h := absurd h (Nat.not_lt_zero _)
  output _ h := absurd h (Nat.not_lt_zero _)

/-- Settles O58: an accepted command runs with both pointers at 0, on the IBUF that the issue does not touch. -/
theorem issueStartsProgress : Obligations.IssueStartsProgress := by
  intro s len hcfg ⟨hready, hidle⟩
  exact ⟨fun hlen => ⟨_, exec_enc_accepted hidle hlen, encProgress_of_accepted hready len⟩,
    fun hlen hmod => ⟨_, exec_dec_accepted hidle hlen hmod, decProgress_of_accepted hready hcfg hlen⟩⟩

end Sys2Proof.Machine
end

section
/-! PROOF. The phases of the block and the ports: the enabled core step (rule R176), the values of STATUS (rule R27), the lines of host programs
(rule R71) and the order of the actions on a clock edge (rule R88). -/

namespace Sys2Proof.Machine

/-! ### The enabled core step (rule R176) -/

theorem enabledStep_of_idle {b : Block} (h : b.idle) : enabledStep b = none := by simp [enabledStep, h.1, h.2]

/-- A block is before INIT, idle, or in one of the four phases of a running command (rule R176). -/
theorem Block.phase_cases (b : Block) :
    b.tblrdy = false ∨ b.idle ∨
    (b.running ∧ b.mode = .enc ∧ (b.iptr.toNat < b.len.toNat ∨ b.len.toNat ≤ b.iptr.toNat)) ∨
    (b.running ∧ b.mode = .dec ∧ (b.iptr.toNat < b.len.toNat ∨ b.len.toNat ≤ b.iptr.toNat)) := by
  have hpos := Nat.lt_or_ge b.iptr.toNat b.len.toNat
  cases hready : b.tblrdy with
  | false => exact .inl rfl
  | true =>
    cases hbusy : b.busy with
    | false => exact .inr (.inl ⟨hready, hbusy⟩)
    | true =>
      cases hmode : b.mode with
      | enc => exact .inr (.inr (.inl ⟨⟨hready, hbusy⟩, rfl, hpos⟩))
      | dec => exact .inr (.inr (.inr ⟨⟨hready, hbusy⟩, rfl, hpos⟩))

/-- Settles O26: the enabled step is known in each phase, and the phases exclude each other. -/
theorem enabledCoreStep : Obligations.EnabledCoreStep := by
  intro b
  obtain hun | hidle | ⟨hrun, hmode, hlt | hle⟩ | ⟨hrun, hmode, hlt | hle⟩ := b.phase_cases
  · simp [enabledStep_of_tblrdy_false hun, hun]
  · simp [enabledStep_of_idle hidle, hidle.1, hidle.2]
  · simp [enabledStep_encGroup hrun hmode hlt, Block.running, hrun, hmode, hlt]
  · simp [enabledStep_encFinish hrun hmode hle, Block.running, hrun, hmode, hle]
  · simp [enabledStep_decGroup hrun hmode hlt, Block.running, hrun, hmode, hlt]
  · simp [enabledStep_decFinish hrun hmode hle, Block.running, hrun, hmode, hle]

/-! ### The values of STATUS (rule R27) -/

/-- STATUS as a sum of its fields. -/
theorem statusWord_toNat (b : Block) : (statusWord b).toNat =
    b.bsywr.toNat * 2 ^ 7 + b.ecode.toNat * 2 ^ 4 + b.tblrdy.toNat * 2 ^ 3 + b.err.toNat * 2 ^ 2 + b.done.toNat * 2 + b.busy.toNat := by
  simp only [statusWord, toNat_append_eq_mul_add, BitVec.toNat_ofBool, BitVec.toNat_ofNat]
  omega

/-- Settles O34: each word is the sum of the fields of its phase. -/
theorem statusWordValues : Obligations.StatusWordValues := by
  refine ⟨by decide, fun s hready hbsywr => ?_⟩
  have hword := statusWord_toNat s.blk
  rw [hready, hbsywr] at hword
  simp only [readCsr_one]
  refine ⟨?idle, ?running, ?success, ?failure, ?dropped⟩
  case idle => intro hbusy hdone herr hcode; apply BitVec.eq_of_toNat_eq; simp [hword, hbusy, hdone, herr, hcode]
  case running => intro hbusy hdone herr hcode; apply BitVec.eq_of_toNat_eq; simp [hword, hbusy, hdone, herr, hcode]
  case success => intro hbusy hdone herr hcode; apply BitVec.eq_of_toNat_eq; simp [hword, hbusy, hdone, herr, hcode]
  case failure =>
    intro hbusy hdone herr
    have hor : 0x0E ||| s.blk.ecode.toNat <<< 4 = s.blk.ecode.toNat <<< 4 + 0x0E := by
      rw [Nat.or_comm, Nat.shiftLeft_add_eq_or_of_lt (by decide)]
    rw [hor, Nat.shiftLeft_eq, hword, hbusy, hdone, herr]
    simp only [Bool.toNat_false, Bool.toNat_true]
    omega
  case dropped =>
    have hbits : (statusWord s.blk).toNat < 2 ^ 7 := by
      have := s.blk.ecode.isLt
      have := Bool.toNat_le s.blk.err
      have := Bool.toNat_le s.blk.done
      have := Bool.toNat_le s.blk.busy
      simp only [Bool.toNat_false, Bool.toNat_true] at hword
      omega
    apply BitVec.eq_of_toNat_eq
    rw [statusWord_toNat, BitVec.toNat_add, BitVec.toNat_ofNat, hword]
    simp only [hready, Bool.toNat_false, Bool.toNat_true] at hword ⊢
    omega

/-! ### Host programs (rule R71) -/

theorem encode_enc_eq (n : Half) : encode (.enc n) = n.setWidth 32 := by
  apply BitVec.eq_of_toNat_eq
  rw [Laws.EncodedWord.enc n, BitVec.toNat_setWidth_of_le (by decide)]
  exact Nat.zero_add _

theorem encode_dec_eq (n : Half) : encode (.dec n) = 0x00010000#32 ||| n.setWidth 32 := by
  have hlt := n.isLt
  apply BitVec.eq_of_toNat_eq
  rw [Laws.EncodedWord.dec n, BitVec.toNat_or, BitVec.toNat_setWidth_of_le (by decide)]
  exact (Nat.shiftLeft_add_eq_or_of_lt (i := 16) hlt 1)

/-- Item `j` of an expanded load goes to the index `j` places after the first (rule R71). -/
theorem loadLines_getElem? (i : Nat) (bs : List Byte) (j : Nat) :
    (loadLines i bs)[j]? = bs[j]?.map fun b => HostLine.wib (BitVec.ofNat 16 (i + j)) b := by
  induction bs generalizing i j with
  | nil => rfl
  | cons b bs ih =>
    cases j with
    | zero => rfl
    | succ j =>
      rw [loadLines, List.getElem?_cons_succ, List.getElem?_cons_succ, ih, Nat.add_right_comm, Nat.add_assoc]

theorem expandOp_rds_getElem? {m j : Nat} (h : j < m) : (expandOp (.rds m))[j]? = some (.rob (BitVec.ofNat 16 j)) := by
  simp [expandOp, h]

theorem expandOp_rds_length (m : Nat) : (expandOp (.rds m)).length = m := by simp [expandOp]

/-- One poll of WAIT: the reply, and the line again while `BUSY` was 1 (rule R71). -/
theorem hwait_eq (s : State) : hwait s =
    { s with pending := (if s.blk.busy then .wait :: s.pending else s.pending), replies := .csr 1#3 (readCsr 1#3 s) :: s.replies } := by
  rw [hwait]
  split_ifs <;> rfl

/-- Settles O37: the words of ENC and DEC as numbers, the items of a load and of a read by their place, and one poll of WAIT. -/
theorem pseudoOperationsExpand : Obligations.PseudoOperationsExpand := by
  refine ⟨fun n => ?enc, fun n => ?dec, fun bs _ j => ?load, fun m j _ hj => ⟨expandOp_rds_getElem? hj, expandOp_rds_length m⟩,
    fun s rest hacts => ?wait⟩
  case enc => rw [expandOp, encode_enc_eq]
  case dec => rw [expandOp, encode_dec_eq]
  case load =>
    have hitem := loadLines_getElem? 0 bs j
    rw [Nat.zero_add] at hitem
    exact ⟨hitem, hitem⟩
  case wait =>
    rw [step_host hacts, ← readCsr_popped 1#3 s rest, ← State.popped_replies s rest, ← State.popped_blk s rest]
    exact congrArg _ (hwait_eq _)

/-! ### The order of the actions on a clock edge (rule R88) -/

/-- The CSR access of an edge leads from `s` to `t`: a write as HWCSR, a read with its reply, or no access at all. -/
def EdgeIn.csrAccess (e : EdgeIn) (s t : State) : Prop :=
  if e.csrReq then
    (if e.csrWe then hwcsr e.csrAddr e.csrWdata s = .next t
    else t = { s with replies := .csr e.csrAddr (readCsr e.csrAddr s) :: s.replies })
  else t = s

/-- The state after the IBUF write of an edge, if it carries one. -/
def EdgeIn.load (e : EdgeIn) (t : State) : State := if e.ibWe then hwib e.ibAddr e.ibWdata t else t

/-- Without `rst` the transactions of an edge are the CSR access and then the IBUF write. -/
theorem runLines_edgeLines {e : EdgeIn} {s t : State} (hrst : e.rst = false) (hcsr : e.csrAccess s t) :
    runLines (edgeLines e) s = .next (e.load t) := by
  unfold EdgeIn.csrAccess at hcsr
  rw [edgeLines, EdgeIn.load, hrst, if_neg Bool.false_ne_true]
  split_ifs at hcsr with hreq hwe
  · cases hib : e.ibWe <;> simp [hreq, hwe, runLines, runLine, hcsr]
  · cases hib : e.ibWe <;> simp [hreq, hwe, runLines, runLine, hrcsr, hcsr]
  · cases hib : e.ibWe <;> simp [hreq, runLines, runLine, hcsr]

/-- The core acts, if it moves on the edge, on what the transactions leave. -/
theorem clockEdge_eq {e : EdgeIn} {s t : State} (m : Bool) (hrst : e.rst = false) (hcsr : e.csrAccess s t) :
    clockEdge e m s = if m then coreAct (e.load t) else .next (e.load t) := by
  rw [clockEdge, runLines_edgeLines hrst hcsr, hrst]
  simp

theorem load_of_none {e : EdgeIn} (h : e.ibWe = false) (t : State) : e.load t = t := by rw [EdgeIn.load, h]; rfl

theorem load_eq_hwib {e : EdgeIn} (h : e.ibWe = true) (t : State) : e.load t = hwib e.ibAddr e.ibWdata t := if_pos h

theorem load_busy {e : EdgeIn} {t : State} (h : e.ibWe = true) (hbusy : t.blk.busy = true) :
    e.load t = { t with blk := { t.blk with bsywr := true } } := (load_eq_hwib h t).trans (hwib_busy _ _ hbusy)

/-- Settles O38: RESET alone is one line; otherwise the CSR access, the IBUF write by its cases, and the core's action follow each other. -/
theorem sameEdgeOrder : Obligations.SameEdgeOrder := by
  refine ⟨?reset, ?order, ?beside, ?read⟩
  case reset =>
    intro e m s hrst
    simp only [clockEdge, edgeLines, hrst, if_true, runLines, runLine, Bool.not_true, Bool.and_false, Bool.false_eq_true, if_false]
    rfl
  case order =>
    intro e m s t hrst hcsr
    refine ⟨e.load t, clockEdge_eq m hrst hcsr, fun hib => load_of_none hib t, load_busy, fun hib hidle hi => ?past, fun hib hidle hi => ?byte⟩
    case past => exact (load_eq_hwib hib t).trans (hwib_idle_outside _ hidle hi)
    case byte =>
      rw [load_eq_hwib hib, hwib_idle_inside _ hidle hi]
      refine ⟨rfl, ?_, fun x hx => Memory.read?_write_other _ _ hx⟩
      rw [State.ibufByte, State.setBlk_blk, Memory.read?_write_same, Option.getD_some]
  case beside =>
    intro e m s t i hrst hreq hwe haddr hib hdec hexec hbusy
    have hcsr : e.csrAccess s t := by
      rw [EdgeIn.csrAccess, if_pos hreq, if_pos hwe, haddr, hwcsr_zero_of_decode_ok hdec, hexec]
    rw [clockEdge_eq m hrst hcsr, load_busy hib hbusy]
  case read =>
    intro e m s hrst hreq hwe haddr hib hbusy
    have hcsr : e.csrAccess s (hrcsr 1#3 s) := by
      rw [EdgeIn.csrAccess, if_pos hreq, hwe, if_neg Bool.false_ne_true, haddr, hrcsr]
    have hload := load_busy (t := hrcsr 1#3 s) hib (by rwa [hrcsr_blk])
    rw [clockEdge_eq m hrst hcsr, hload]
    rfl

end Sys2Proof.Machine
end

section
/-! PROOF. A running command under any host that does not reset: every step keeps its progress or ends it (42_encode.md, the result in closed form;
43_decode.md, the results on success and on failure; 20_memory.md, ordering). -/

namespace Sys2Proof.Machine

/-! ### Progress and results read the block, the epoch and the parameters alone -/

theorem State.obufByte_of_read?_eq {s t : State} {x : Nat} (h : Memory.read? t.blk.obuf x = Memory.read? s.blk.obuf x)
    (hepoch : t.epoch = s.epoch) : t.obufByte x = s.obufByte x := by
  rw [State.obufByte, State.obufByte, h, hepoch]

section Transfer

variable {s u : State} {t : Text} {n : Nat}

theorem State.EncProgress.of_blk_eq (h : s.EncProgress t n) (hblk : u.blk = s.blk) (hepoch : u.epoch = s.epoch) : u.EncProgress t n where
  running := hblk ▸ h.running
  mode := hblk ▸ h.mode
  len := hblk ▸ h.len
  input := by rw [State.ibufByte_congr (congrArg Block.ibuf hblk) hepoch]; exact h.input
  output := by rw [State.obufByte_congr (congrArg Block.obuf hblk) hepoch, hblk]; exact h.output

theorem State.EncDone.of_blk_eq (h : s.EncDone t n) (hblk : u.blk = s.blk) (hepoch : u.epoch = s.epoch) (hcfg : u.cfg = s.cfg) : u.EncDone t n where
  status := hblk ▸ h.status
  olen := hblk ▸ h.olen
  text := by rw [State.obufByte_congr (congrArg Block.obuf hblk) hepoch]; exact h.text
  sentinel := by rw [State.obufByte_congr (congrArg Block.obuf hblk) hepoch, hcfg]; exact h.sentinel

theorem State.DecProgress.of_blk_eq (h : s.DecProgress t n) (hblk : u.blk = s.blk) (hepoch : u.epoch = s.epoch) : u.DecProgress t n where
  running := hblk ▸ h.running
  mode := hblk ▸ h.mode
  len := hblk ▸ h.len
  olen := hblk ▸ h.olen
  input := by rw [State.ibufByte_congr (congrArg Block.ibuf hblk) hepoch]; exact h.input
  good := hblk ▸ h.good
  output := by rw [State.obufByte_congr (congrArg Block.obuf hblk) hepoch, hblk]; exact h.output

theorem State.DecDone.of_blk_eq (h : s.DecDone t n) (hblk : u.blk = s.blk) (hepoch : u.epoch = s.epoch) : u.DecDone t n where
  status := hblk ▸ h.status
  good := h.good
  olen := hblk ▸ h.olen
  bytes := by rw [State.obufByte_congr (congrArg Block.obuf hblk) hepoch]; exact h.bytes

theorem State.DecFailed.of_blk_eq (h : s.DecFailed t n) (hblk : u.blk = s.blk) (hepoch : u.epoch = s.epoch) : u.DecFailed t n where
  status := hblk ▸ h.status
  olen := hblk ▸ h.olen
  bad := hblk ▸ h.bad
  lowest := hblk ▸ h.lowest
  code := hblk ▸ h.code
  leftBehind := by rw [State.obufByte_congr (congrArg Block.obuf hblk) hepoch, hblk]; exact h.leftBehind

end Transfer

/-! ### The core's steps of an ENC -/

section Enc

variable {s : State} {t : Text} {n : Nat} (hinv : s.Inv) (hp : s.EncProgress t n)
include hp

/-- A byte of the group at IPTR is the input's, or 0 past its end (rules R121, R123). -/
theorem State.EncProgress.groupByte_eq (k : Nat) : s.groupByte k = zeroFilled t n (s.blk.iptr.toNat + k) := by
  rw [State.groupByte, zeroFilled, hp.len]
  split_ifs with h
  · exact hp.input _ h
  · rfl

include hinv

/-- The characters of the group at IPTR are those of the text from OPTR on (rules R121, R123). -/
theorem State.EncProgress.groupChars_get (k : Fin 4) : s.groupChars.get k = encChar t n (s.blk.optr.toNat + k.val) := by
  obtain ⟨hmod, hoptr, -⟩ := hinv.encPtrs hp.running hp.mode
  have hgroup : 3 * ((s.blk.optr.toNat + k.val) / 4) = s.blk.iptr.toNat := by omega
  have hplace : (⟨(s.blk.optr.toNat + k.val) % 4, Nat.mod_lt _ (by decide)⟩ : Fin 4) = k := Fin.ext (by simp only; omega)
  rw [State.groupChars, encChar, hplace, hgroup, hp.groupByte_eq, hp.groupByte_eq, hp.groupByte_eq, Nat.add_zero]

theorem State.EncProgress.encGrouped (hlt : s.blk.iptr.toNat < s.blk.len.toNat) : (s.setBlk s.encGrouped).EncProgress t n where
  running := hp.running
  mode := hp.mode
  len := hp.len
  input := hp.input
  output j hj := by
    rw [State.setBlk_blk, State.encGrouped, (encGroup_pointers hinv hp.running hp.mode hlt).2] at hj
    by_cases hold : j < s.blk.optr.toNat
    · have hkept : (s.setBlk s.encGrouped).obufByte j = s.obufByte j :=
        State.obufByte_of_read?_eq (Memory.read?_writeList_other _ _ (.inl hold)) rfl
      exact hkept.trans (hp.output j hold)
    · obtain ⟨k, rfl⟩ : ∃ k : Fin 4, j = s.blk.optr.toNat + k.val := ⟨⟨j - s.blk.optr.toNat, by omega⟩, by simp only; omega⟩
      rw [← hp.groupChars_get hinv]
      exact State.obufByte_of_read? (Memory.read?_writeList_vector _ _ _ k)

/-- Past the last group OPTR stands at the end of the text (rule R35, item 8). -/
theorem State.EncProgress.optr_at_end (hle : s.blk.len.toNat ≤ s.blk.iptr.toNat) : s.blk.optr.toNat = encLen n := by
  obtain ⟨hmod, hoptr, -, hmax⟩ := hinv.encPtrs hp.running hp.mode
  rw [← hp.len, encLen]
  omega

theorem State.EncProgress.encFinished (hle : s.blk.len.toNat ≤ s.blk.iptr.toNat) : (s.setBlk s.encFinished).EncDone t n := by
  obtain ⟨-, -, holen, -⟩ := hinv.encPtrs hp.running hp.mode
  have hread := fun x => read?_padAndTerm s.cfg s.blk.obuf (encLen n) x (padCount_le n)
  have hobuf : (s.setBlk s.encFinished).blk.obuf = padAndTerm s.cfg s.blk.obuf (encLen n) (padCount n) := by
    rw [State.setBlk_blk, State.encFinished, holen, hp.len]
  rw [← hobuf] at hread
  rw [hp.len] at holen
  refine ⟨⟨rfl, rfl, (hinv.clean_of_running hp.running).2⟩, holen, fun j hj => ?text, State.obufByte_of_read? ((hread _).trans (if_pos rfl))⟩
  case text =>
    by_cases hpad : encText t n j = pad
    · rw [hpad]
      rw [encText_eq_pad_iff] at hpad
      exact State.obufByte_of_read? ((hread j).trans (by rw [if_neg (by omega), if_pos (by omega)]))
    · rw [encText_eq_pad_iff, Nat.not_le] at hpad
      have hold : j < s.blk.optr.toNat := by rw [hp.optr_at_end hinv hle]; exact hj
      rw [encText, if_pos hpad, ← hp.output j hold]
      exact State.obufByte_of_read?_eq ((hread j).trans (by rw [if_neg (by omega), if_neg (by omega)])) rfl

end Enc

/-! ### The core's steps of a DEC -/

section Dec

variable {s : State} {t : Text} {n : Nat} (hinv : s.Inv) (hp : s.DecProgress t n)
include hp

/-- The characters that the core reads are bad where those of the text are (rule R140). -/
theorem State.DecProgress.badIndex_iff {i : Nat} (hi : i < n) : badIndex s.ibufByte s.blk.len.toNat i ↔ badIndex t n i := by
  rw [hp.len]
  exact badIndex_congr hp.input hi

include hinv

/-- The group at IPTR lies inside the text, and the output before it is complete (rule R35, item 9). -/
theorem State.DecProgress.optr_of_lt (hlt : s.blk.iptr.toNat < s.blk.len.toNat) :
    s.blk.iptr.toNat + 3 < n ∧ s.blk.iptr.toNat % 4 = 0 ∧ s.blk.optr.toNat = 3 * (s.blk.iptr.toNat / 4) := by
  obtain ⟨hlast, -⟩ := decGroup_inRange hinv hp.running hp.mode hlt
  obtain ⟨hmod, -, hoptr⟩ := hinv.decPtrs hp.running hp.mode
  have hge := decLen_ge t n
  rw [hp.len] at hlast
  rw [hp.olen] at hoptr
  omega

theorem State.DecProgress.decEmitted (hlt : s.blk.iptr.toNat < s.blk.len.toNat)
    (hgood : ∀ k < 4, ¬ badIndex s.ibufByte s.blk.len.toNat (s.blk.iptr.toNat + k)) :
    (s.setBlk (s.decEmitted (textGroup s.ibufByte (s.blk.iptr.toNat / 4)))).DecProgress t n where
  running := hp.running
  mode := hp.mode
  len := hp.len
  olen := hp.olen
  input := hp.input
  good i hi := by
    obtain ⟨hlast, -⟩ := hp.optr_of_lt hinv hlt
    rw [State.setBlk_blk, State.decEmitted, decGroup_iptr_toNat hinv hp.running hp.mode hlt] at hi
    by_cases hold : i < s.blk.iptr.toNat
    · exact hp.good i hold
    · obtain ⟨k, rfl⟩ := Nat.exists_eq_add_of_le (Nat.not_lt.mp hold)
      rw [← hp.badIndex_iff (by omega)]
      exact hgood k (by omega)
  output j hj := by
    obtain ⟨hlast, hmod, hoptr⟩ := hp.optr_of_lt hinv hlt
    rw [State.setBlk_blk, State.decEmitted, decGroup_optr_toNat hinv hp.running hp.mode, State.emitted_length] at hj
    by_cases hold : j < s.blk.optr.toNat
    · have hkept : (s.setBlk (s.decEmitted (textGroup s.ibufByte (s.blk.iptr.toNat / 4)))).obufByte j = s.obufByte j :=
        State.obufByte_of_read?_eq (Memory.read?_writeList_other _ _ (.inl hold)) rfl
      exact hkept.trans (hp.output j hold)
    · obtain ⟨k, rfl⟩ : ∃ k : Fin 3, j = s.blk.optr.toNat + k.val := ⟨⟨j - s.blk.optr.toNat, by omega⟩, by simp only; omega⟩
      have hvalue : decByte t (s.blk.optr.toNat + k.val) = oct (textGroup s.ibufByte (s.blk.iptr.toNat / 4)) k := by
        rw [hoptr, decByte_at, textGroup_congr hp.input (by omega)]
      rw [hvalue]
      exact State.obufByte_of_read? (read?_emitted s _ _ k (by omega))

/-- A DEC_GROUP whose first bad character stands `k` places after IPTR fails at the lowest bad index of the text (rule R140). -/
theorem State.DecProgress.failGroup (hlt : s.blk.iptr.toNat < s.blk.len.toNat) {k : Nat} (hk : k < 4)
    (hbefore : ∀ j < k, ¬ badIndex s.ibufByte s.blk.len.toNat (s.blk.iptr.toNat + j))
    (hbad : badIndex s.ibufByte s.blk.len.toNat (s.blk.iptr.toNat + k)) :
    (s.setBlk (s.blk.raise (badError s.ibufByte (s.blk.iptr.toNat + k)))).DecFailed t n := by
  obtain ⟨hlast, hmod, hoptr⟩ := hp.optr_of_lt hinv hlt
  have hlen := s.blk.len.isLt
  have hn := hp.len
  have hidx := s.blk.raise_badError_erridx s.ibufByte (i := s.blk.iptr.toNat + k) (by omega)
  rw [hp.badIndex_iff (by omega)] at hbad
  refine ⟨⟨rfl, rfl, rfl⟩, rfl, ?bad, ?lowest, ?code, ?leftBehind⟩
  all_goals rw [State.setBlk_blk, hidx]
  case bad => exact ⟨by omega, hbad⟩
  case lowest =>
    intro i hi
    by_cases hold : i < s.blk.iptr.toNat
    · exact hp.good i hold
    · obtain ⟨j, rfl⟩ := Nat.exists_eq_add_of_le (Nat.not_lt.mp hold)
      rw [← hp.badIndex_iff (by omega)]
      exact hbefore j (by omega)
  case code => rw [Block.raise_ecode, badError_code, badError_code, hp.input _ (by omega)]
  case leftBehind => exact fun j hj => hp.output j (by omega)

theorem State.DecProgress.decGrouped (hlt : s.blk.iptr.toNat < s.blk.len.toNat) :
    (s.setBlk s.decGrouped).DecProgress t n ∨ (s.setBlk s.decGrouped).DecFailed t n := by
  obtain ⟨hgood, hb⟩ | ⟨k, hk, hbefore, hbad, hb⟩ := hinv.decGrouped_cases hp.running hp.mode
  · rw [hb]
    exact .inl (hp.decEmitted hinv hlt hgood)
  · rw [hb]
    exact .inr (hp.failGroup hinv hlt hk hbefore hbad)

/-- Past the last group the whole text is good and OPTR stands at the end of the output (rule R35, item 9). -/
theorem State.DecProgress.at_end (hle : s.blk.len.toNat ≤ s.blk.iptr.toNat) :
    s.blk.iptr.toNat = n ∧ s.blk.optr.toNat = decLen t n := by
  obtain ⟨-, hmax, hoptr⟩ := hinv.decPtrs hp.running hp.mode
  have hiptr : s.blk.iptr.toNat = n := by rw [← hp.len]; exact hmax.antisymm hle
  have hsmall := decLen_le t n
  rw [hp.olen, hiptr] at hoptr
  exact ⟨hiptr, by omega⟩

theorem State.DecProgress.complete (hle : s.blk.len.toNat ≤ s.blk.iptr.toNat) : (s.setBlk s.blk.complete).DecDone t n := by
  obtain ⟨hiptr, hoptr⟩ := hp.at_end hinv hle
  exact ⟨⟨rfl, rfl, (hinv.clean_of_running hp.running).2⟩, hiptr ▸ hp.good, hp.olen, hoptr ▸ hp.output⟩

end Dec

/-! ### The host's lines while a command runs -/

section Host

variable {s u : State} (hblk : u.blk = { s.blk with bsywr := u.blk.bsywr }) (hepoch : u.epoch = s.epoch) {t : Text} {n : Nat}
include hblk hepoch

/-- The progress of an ENC does not depend on `BSYWR`. -/
theorem State.EncProgress.of_bsywr (h : s.EncProgress t n) : u.EncProgress t n := by
  have hset : (s.setBlk { s.blk with bsywr := u.blk.bsywr }).EncProgress t n := { h with }
  exact hset.of_blk_eq hblk hepoch

/-- The progress of a DEC does not depend on `BSYWR`. -/
theorem State.DecProgress.of_bsywr (h : s.DecProgress t n) : u.DecProgress t n := by
  have hset : (s.setBlk { s.blk with bsywr := u.blk.bsywr }).DecProgress t n := { h with }
  exact hset.of_blk_eq hblk hepoch

end Host

/-- A step of a running command is one of the core's, or a line of the host other than RST, which changes `BSYWR` at most. -/
theorem step_cases_running {s u : State} (hrun : s.blk.running) (hrst : ∀ rest, ¬ s.hostActs .rst rest) (hstep : step s = .next u) :
    nextAgent s = some .core ∨ (u.blk = { s.blk with bsywr := u.blk.bsywr } ∧ u.epoch = s.epoch) := by
  obtain ⟨-, rfl⟩ | ⟨hcore, -⟩ | ⟨l, rest, hacts, hl⟩ := step_cases hstep
  · exact .inr ⟨rfl, rfl⟩
  · exact .inl hcore
  · have hne : l ≠ .rst := by
      rintro rfl
      exact hrst rest hacts
    obtain ⟨-, hepoch, hblk, -⟩ := runLine_busy hl (by rw [State.popped_blk]; exact hrun.2) hne
    rw [State.popped_blk] at hblk
    exact .inr ⟨hblk, hepoch.trans (State.popped_epoch s rest)⟩

/-- Settles O56: the host's lines keep the progress, a group adds its characters to it, and the finish completes it. -/
theorem encStepKeepsProgressOrCompletes : Obligations.EncStepKeepsProgressOrCompletes := by
  intro s s' t n hinv hp hrst hstep
  obtain hcore | ⟨hblk, hepoch⟩ := step_cases_running hp.running hrst hstep
  · obtain ⟨b, hb, hcases⟩ := hinv.step_core hcore
    obtain rfl := next_eq (hb.symm.trans hstep)
    have hepoch := spendTurn_epoch s
    obtain ⟨hunbuilt, -⟩ | ⟨-, -, hlt, rfl⟩ | ⟨-, -, hle, rfl⟩ | ⟨-, hdec, -⟩ | ⟨-, hdec, -⟩ := hcases
    · exact absurd (hp.running.1.symm.trans hunbuilt) nofun
    · exact .inl ((hp.encGrouped hinv hlt).of_blk_eq rfl hepoch)
    · exact .inr ((hp.encFinished hinv hle).of_blk_eq rfl hepoch (spendTurn_cfg s))
    · exact absurd (hp.mode.symm.trans hdec) nofun
    · exact absurd (hp.mode.symm.trans hdec) nofun
  · exact .inl (hp.of_bsywr hblk hepoch)

/-- Settles O57: the host's lines keep the progress, a group adds its bytes to it or fails it, and the finish completes it. -/
theorem decStepKeepsProgressOrEnds : Obligations.DecStepKeepsProgressOrEnds := by
  intro s s' t n hinv hp hrst hstep
  obtain hcore | ⟨hblk, hepoch⟩ := step_cases_running hp.running hrst hstep
  · obtain ⟨b, hb, hcases⟩ := hinv.step_core hcore
    obtain rfl := next_eq (hb.symm.trans hstep)
    have hepoch := spendTurn_epoch s
    obtain ⟨hunbuilt, -⟩ | ⟨-, henc, -⟩ | ⟨-, henc, -⟩ | ⟨-, -, hlt, rfl⟩ | ⟨-, -, hle, rfl⟩ := hcases
    · exact absurd (hp.running.1.symm.trans hunbuilt) nofun
    · exact absurd (hp.mode.symm.trans henc) nofun
    · exact absurd (hp.mode.symm.trans henc) nofun
    · obtain hkept | hfailed := hp.decGrouped hinv hlt
      · exact .inl (hkept.of_blk_eq rfl hepoch)
      · exact .inr (.inr (hfailed.of_blk_eq rfl hepoch))
    · exact .inr (.inl ((hp.complete hinv hle).of_blk_eq rfl hepoch))
  · exact .inl (hp.of_bsywr hblk hepoch)

end Sys2Proof.Machine
end

section
/-! PROOF. The results of ENC and DEC in closed form with a quiet host (42_encode.md, rule R123; 43_decode.md, rules R139, R140, R142 and the round
trip): the run of the group steps by induction on their number, then the last step. -/

namespace Sys2Proof.Machine

/-! ### Steps and runs with a quiet host -/

theorem run_zero (s : State) : run 0 s = .next s := rfl

theorem run_one {s t : State} (h : step s = .next t) : run 1 s = .next t := (run_step 0 h).trans (run_zero t)

/-- With nothing pending an enabled step of the core is the next step. -/
theorem nextAgent_of_quiet {s : State} {k : CoreStep} (hp : s.pending = []) (hk : enabledStep s.blk = some k) :
    nextAgent s = some .core := by
  rw [nextAgent_of_no_pending hp, hk]
  rfl

/-- With nothing pending no turn is used up, so a step of the core replaces the block alone. -/
theorem step_of_quiet {s : State} {b : Block} (hp : s.pending = []) (hstep : step s = .next { spendTurn s with blk := b }) :
    step s = .next (s.setBlk b) := by
  rwa [spendTurn_of_no_pending hp] at hstep

/-- A block whose group steps have left `m` in OBUF and moved the pointers to `i` and `o`. -/
def Block.advanced (b : Block) (m : Memory) (i o : Nat) : Block := { b with obuf := m, iptr := BitVec.ofNat 16 i, optr := BitVec.ofNat 16 o }

theorem Block.advanced_self (b : Block) : b.advanced b.obuf b.iptr.toNat b.optr.toNat = b := by
  rw [Block.advanced, BitVec.ofNat_toNat, BitVec.ofNat_toNat, BitVec.setWidth_eq, BitVec.setWidth_eq]

/-! ### ENC -/

/-- The remaining group steps of an ENC: both pointers at their ends, the text unpadded below OPTR, the bytes from there on unchanged. -/
theorem run_encGroups {s : State} {t : Text} {n k : Nat} (hk : s.blk.iptr.toNat + 3 * k = 3 * ((n + 2) / 3)) (hinv : s.Inv) (hquiet : s.pending = [])
    (hp : s.EncProgress t n) :
    ∃ m u, u = s.setBlk (s.blk.advanced m (3 * ((n + 2) / 3)) (encLen n)) ∧ run k s = .next u ∧ u.Inv ∧ u.EncProgress t n ∧
      ∀ x, encLen n ≤ x → Memory.read? m x = Memory.read? s.blk.obuf x := by
  induction k generalizing s with
  | zero =>
    have hlen := hp.len
    have hoptr := hp.optr_at_end hinv (by omega)
    have hself : s.setBlk (s.blk.advanced s.blk.obuf (3 * ((n + 2) / 3)) (encLen n)) = s := by
      rw [← hk, ← hoptr]
      exact congrArg s.setBlk s.blk.advanced_self
    exact ⟨s.blk.obuf, s, hself.symm, run_zero s, hinv, hp, fun _ _ => rfl⟩
  | succ k ih =>
    have hlen := hp.len
    have hlt : s.blk.iptr.toNat < s.blk.len.toNat := by omega
    obtain ⟨hiptr, -⟩ := encGroup_pointers hinv hp.running hp.mode hlt
    have hout := (encGroup_inRange hinv hp.running hp.mode hlt).2
    obtain ⟨-, -, holen, -⟩ := hinv.encPtrs hp.running hp.mode
    have hstep := step_of_quiet hquiet
      (step_encGroup hinv hp.running hp.mode hlt (nextAgent_of_quiet hquiet (enabledStep_encGroup hp.running hp.mode hlt)))
    obtain ⟨m, u, hu, hrun, hinv', hp', hframe⟩ := ih (s := s.setBlk s.encGrouped)
      (by rw [State.setBlk_blk, State.encGrouped, hiptr]; omega) (hinv.encGrouped hp.running hp.mode hlt) hquiet (hp.encGrouped hinv hlt)
    have hend : s.blk.optr.toNat + s.groupChars.toList.length ≤ encLen n := by
      rw [State.groupChars_length, ← hlen]
      omega
    exact ⟨m, u, hu, (run_step k hstep).trans hrun, hinv', hp', fun x hx =>
      (hframe x hx).trans (Memory.read?_writeList_other _ _ (.inr (hend.trans hx)))⟩

/-- The finish of an ENC with a quiet host: the result, with nothing written above the sentinel (rule R122). -/
theorem finish_enc {s : State} {t : Text} {n : Nat} (hinv : s.Inv) (hquiet : s.pending = []) (hp : s.EncProgress t n)
    (hle : s.blk.len.toNat ≤ s.blk.iptr.toNat) :
    step s = .next (s.setBlk s.encFinished) ∧ (s.setBlk s.encFinished).EncDone t n ∧
      ∀ x, encLen n < x → Memory.read? s.encFinished.obuf x = Memory.read? s.blk.obuf x := by
  have hcore := nextAgent_of_quiet hquiet (enabledStep_encFinish hp.running hp.mode hle)
  obtain ⟨-, -, holen, -⟩ := hinv.encPtrs hp.running hp.mode
  rw [hp.len] at holen
  refine ⟨step_of_quiet hquiet (step_encFinish hinv hp.running hp.mode hle hcore), hp.encFinished hinv hle, fun x hx => ?_⟩
  rw [State.encFinished, read?_padAndTerm _ _ _ _ (padCount_le _), holen, if_neg (by omega), if_neg (by omega)]

/-- Settles O48: the issue starts the progress, the groups bring it to its end, and the finish completes it. -/
theorem encCommandResult : Obligations.EncCommandResult := by
  intro s len hinv ⟨hready, hidle⟩ hquiet hlen
  obtain ⟨m, u, rfl, hgroups, hinv1, hp1, hframe⟩ := run_encGroups (k := (len.toNat + 2) / 3) (Nat.zero_add _)
    (hinv.acceptIssue hidle (m := .enc) (encLen_le_decSize hlen) (fun _ => ⟨hlen, rfl⟩) nofun) hquiet (encProgress_of_accepted hready len)
  have hend : (BitVec.ofNat 16 (3 * ((len.toNat + 2) / 3))).toNat = 3 * ((len.toNat + 2) / 3) := by
    obtain ⟨-, hmax⟩ := hinv.cfg
    rw [BitVec.toNat_ofNat]
    omega
  obtain ⟨hfinish, hdone, habove⟩ := finish_enc hinv1 hquiet hp1 (by
    rw [State.setBlk_blk, Block.advanced, hend, State.setBlk_blk, Block.accept_len, Block.latch_len]
    omega)
  exact ⟨_, _, exec_enc_accepted hidle hlen, (run_add hgroups).trans (run_one hfinish), rfl, hdone.text, hdone.sentinel,
    fun x hx => (habove x hx).trans (hframe x hx.le)⟩

/-! ### DEC -/

/-- The group steps of a DEC up to text group `g`, whose characters are all good: the pointers after those groups, the bytes from OPTR on
unchanged. -/
theorem run_decGroups {s : State} {t : Text} {n g k : Nat} (hk : s.blk.iptr.toNat + 4 * k = 4 * g) (hg : 4 * g ≤ n)
    (hgood : ∀ i < 4 * g, ¬ badIndex t n i) (hinv : s.Inv) (hquiet : s.pending = []) (hp : s.DecProgress t n) :
    ∃ m u, u = s.setBlk (s.blk.advanced m (4 * g) (min (decLen t n) (3 * g))) ∧ run k s = .next u ∧ u.Inv ∧ u.DecProgress t n ∧
      ∀ x, min (decLen t n) (3 * g) ≤ x → Memory.read? m x = Memory.read? s.blk.obuf x := by
  induction k generalizing s with
  | zero =>
    obtain ⟨-, -, hoptr⟩ := hinv.decPtrs hp.running hp.mode
    have hoptr' : s.blk.optr.toNat = min (decLen t n) (3 * g) := by
      rw [hoptr, hp.olen]
      omega
    have hself : s.setBlk (s.blk.advanced s.blk.obuf (4 * g) (min (decLen t n) (3 * g))) = s := by
      rw [← hk, ← hoptr']
      exact congrArg s.setBlk s.blk.advanced_self
    exact ⟨s.blk.obuf, s, hself.symm, run_zero s, hinv, hp, fun _ _ => rfl⟩
  | succ k ih =>
    have hlen := hp.len
    have hlt : s.blk.iptr.toNat < s.blk.len.toNat := by omega
    have hgroup : ∀ j < 4, ¬ badIndex s.ibufByte s.blk.len.toNat (s.blk.iptr.toNat + j) := fun j hj => by
      rw [hp.badIndex_iff (by omega)]
      exact hgood _ (by omega)
    obtain ⟨-, -, hoptr⟩ := hp.optr_of_lt hinv hlt
    have hcount := s.emitted_length (textGroup s.ibufByte (s.blk.iptr.toNat / 4))
    have hwithin := decGroup_optr_le_olen hinv hp.running hp.mode
    rw [hp.olen] at hcount hwithin
    have hcore := nextAgent_of_quiet hquiet (enabledStep_decGroup hp.running hp.mode hlt)
    have hstep := step_of_quiet hquiet (step_decGroup hinv hp.running hp.mode hlt hcore)
    rw [hinv.decGrouped_of_good hp.running hp.mode hgroup] at hstep
    obtain ⟨m, u, hu, hrun, hinv', hp', hframe⟩ := ih
      (by rw [State.setBlk_blk, State.decEmitted, decGroup_iptr_toNat hinv hp.running hp.mode hlt]; omega)
      (hinv.decEmitted hp.running hp.mode hlt _) hquiet (hp.decEmitted hinv hlt hgroup)
    have hend : s.blk.optr.toNat + (s.emitted (textGroup s.ibufByte (s.blk.iptr.toNat / 4))).length ≤ min (decLen t n) (3 * g) := by
      omega
    exact ⟨m, u, hu, (run_step k hstep).trans hrun, hinv', hp', fun x hx =>
      (hframe x hx).trans (Memory.read?_writeList_other _ _ (.inr (hend.trans hx)))⟩

/-- The finish of a DEC with a quiet host (rule R138). -/
theorem finish_dec {s : State} {t : Text} {n : Nat} (hinv : s.Inv) (hquiet : s.pending = []) (hp : s.DecProgress t n)
    (hle : s.blk.len.toNat ≤ s.blk.iptr.toNat) : step s = .next (s.setBlk s.blk.complete) ∧ (s.setBlk s.blk.complete).DecDone t n := by
  have hcore := nextAgent_of_quiet hquiet (enabledStep_decFinish hp.running hp.mode hle)
  exact ⟨step_of_quiet hquiet (decFinishCompletes s hp.running hp.mode hle hcore), hp.complete hinv hle⟩

/-- The DEC_GROUP that meets the lowest bad index of the text, with a quiet host (rule R140). -/
theorem fail_dec {s : State} {t : Text} {n e : Nat} (hinv : s.Inv) (hquiet : s.pending = []) (hp : s.DecProgress t n)
    (hgroup : s.blk.iptr.toNat = 4 * (e / 4)) (he : e < n) (hbad : badIndex t n e) (hlowest : ∀ i < e, ¬ badIndex t n i) :
    step s = .next (s.setBlk (s.blk.raise (badError t e))) := by
  have hlen := hp.len
  have hlt : s.blk.iptr.toNat < s.blk.len.toNat := by omega
  have hindex : s.blk.iptr.toNat + e % 4 = e := by omega
  have hcore := nextAgent_of_quiet hquiet (enabledStep_decGroup hp.running hp.mode hlt)
  have hraise : s.decGrouped = s.blk.raise (badError t e) := by
    have hbefore : ∀ j < e % 4, ¬ badIndex s.ibufByte s.blk.len.toNat (s.blk.iptr.toNat + j) := fun j hj => by
      rw [hp.badIndex_iff (by omega)]
      exact hlowest _ (by omega)
    rw [hinv.decGrouped_of_first_bad hp.running (Nat.mod_lt e (by decide)) hbefore (by rwa [hindex, hp.badIndex_iff he]), hindex,
      badError, badError, hp.input e he]
  rw [← hraise]
  exact step_of_quiet hquiet (step_decGroup hinv hp.running hp.mode hlt hcore)

/-- The groups before text group `g` of a DEC that the host issues while idle, when their characters are all good. -/
theorem run_issued_decGroups {s : State} {len : Half} {g : Nat} (hinv : s.Inv) (hidle : s.blk.idle) (hquiet : s.pending = [])
    (hlen : len.toNat ≤ s.cfg.decSize) (hmod : len.toNat % 4 = 0) (hg : 4 * g ≤ len.toNat)
    (hgood : ∀ i < 4 * g, ¬ badIndex s.ibufByte len.toNat i) :
    ∃ t0 m u, t0 = s.setBlk ((s.blk.latch .dec len).accept (decLen s.ibufByte len.toNat)) ∧
      u = t0.setBlk (t0.blk.advanced m (4 * g) (min (decLen s.ibufByte len.toNat) (3 * g))) ∧
      exec (.dec len) s = .next t0 ∧ run g t0 = .next u ∧ u.Inv ∧ u.DecProgress s.ibufByte len.toNat ∧
      ∀ x, min (decLen s.ibufByte len.toNat) (3 * g) ≤ x → Memory.read? m x = Memory.read? s.blk.obuf x := by
  obtain ⟨m, u, hu, hgroups, hinv1, hp1, hframe⟩ := run_decGroups (k := g) (Nat.zero_add _) hg hgood
    (hinv.acceptIssue hidle.2 (m := .dec) (decLen_le_decSize hlen) nofun (fun _ => ⟨hlen, hmod⟩)) hquiet
    (decProgress_of_accepted hidle.1 hinv.cfg hlen)
  exact ⟨_, m, u, rfl, hu, exec_dec_accepted hidle.2 hlen hmod, hgroups, hinv1, hp1, hframe⟩

/-- Settles O49: no index of the text is bad, so all groups are emitted, and DEC_FINISH completes. -/
theorem decCommandResult : Obligations.DecCommandResult := by
  intro s len hinv hidle hquiet hlen hwf
  have hmod := hwf.1
  have hgood := (wellFormedIffNoBadIndex _ _ hmod).mp hwf
  have hall : 4 * (len.toNat / 4) = len.toNat := by omega
  obtain ⟨t0, m, u, rfl, hu, hissue, hgroups, hinv1, hp1, hframe⟩ :=
    run_issued_decGroups (g := len.toNat / 4) hinv hidle hquiet hlen hmod hall.le (hall.symm ▸ hgood)
  have houtput : min (decLen s.ibufByte len.toNat) (3 * (len.toNat / 4)) = decLen s.ibufByte len.toNat :=
    Nat.min_eq_left (decLen_le _ _)
  have hiptr : BitVec.ofNat 16 (4 * (len.toNat / 4)) = len := by rw [hall, BitVec.ofNat_toNat, BitVec.setWidth_eq]
  rw [houtput] at hu hframe
  rw [Block.advanced, hiptr] at hu
  subst hu
  obtain ⟨hfinish, hdone⟩ := finish_dec hinv1 hquiet hp1 le_rfl
  exact ⟨_, _, hissue, (run_add hgroups).trans (run_one hfinish), rfl, hdone.bytes, hframe⟩

/-- Settles O50: the groups before the lowest bad index are emitted, and the DEC_GROUP that meets it raises its error. -/
theorem decCommandFailure : Obligations.DecCommandFailure := by
  intro s len e hinv hidle hquiet hlen hmod he hbad hlowest
  obtain ⟨t0, m, u, rfl, hu, hissue, hgroups, hinv1, hp1, hframe⟩ :=
    run_issued_decGroups (g := e / 4) hinv hidle hquiet hlen hmod (by omega) (fun i hi => hlowest i (by omega))
  have hlen16 := len.isLt
  have hbig := decLen_ge s.ibufByte len.toNat
  have houtput : min (decLen s.ibufByte len.toNat) (3 * (e / 4)) = 3 * (e / 4) := Nat.min_eq_right (by omega)
  rw [houtput] at hu hframe
  subst hu
  have hfail := fail_dec hinv1 hquiet hp1 ((BitVec.toNat_ofNat _ _).trans (Nat.mod_eq_of_lt (by omega))) he hbad hlowest
  rw [Block.raise, badError_code, badError_erridx] at hfail
  have hoptr : (BitVec.ofNat 16 (3 * (e / 4))).toNat = 3 * (e / 4) := (BitVec.toNat_ofNat _ _).trans (Nat.mod_eq_of_lt (by omega))
  exact ⟨_, _, hissue, (run_add hgroups).trans (run_one hfail), rfl, fun j hj => hp1.output j (hj.trans_eq hoptr.symm), hframe⟩

/-! ### Round trip and unused bits on the machine -/

/-- What software sees of a DEC of a text that agrees with IBUF below its length: it completes without error with the text's bytes. -/
theorem dec_of_text {s : State} {t : Text} {len : Half} (hinv : s.Inv) (hidle : s.blk.idle) (hquiet : s.pending = [])
    (hlen : len.toNat ≤ s.cfg.decSize) (hwf : wellFormedText s.ibufByte len.toNat)
    (hlength : decLen s.ibufByte len.toNat = decLen t len.toNat)
    (hbytes : ∀ i < decLen t len.toNat, decByte s.ibufByte i = decByte t i) :
    ∃ t0 v, exec (.dec len) s = .next t0 ∧ run (len.toNat / 4 + 1) t0 = .next v ∧ v.blk.busy = false ∧ v.blk.done = true ∧
      v.blk.err = false ∧ v.blk.olen.toNat = decLen t len.toNat ∧ ∀ i < decLen t len.toNat, v.obufByte i = decByte t i := by
  obtain ⟨t0, v, hissue, hrun, hv, hout, -⟩ := decCommandResult s len hinv hidle hquiet hlen hwf
  have holen : v.blk.olen = BitVec.ofNat 16 (decLen s.ibufByte len.toNat) := by rw [hv]
  refine ⟨t0, v, hissue, hrun, by rw [hv], by rw [hv], by rw [hv], ?olen, fun i hi => ?byte⟩
  case olen => rw [holen, toNat_ofNat_of_le_decSize hinv.cfg (decLen_le_decSize hlen), hlength]
  case byte => rw [hout i (by rwa [hlength]), hbytes i hi]

/-- Settles O54: IBUF agrees with the text of the bytes, which is well-formed and decodes to them. -/
theorem roundTripOnMachine : Obligations.RoundTripOnMachine := by
  intro s t len hinv hidle hquiet hlen htext
  have hfits := encLen_le_decSize hlen
  have hnum := toNat_ofNat_of_le_decSize hinv.cfg hfits
  obtain ⟨t0, u, hissue, hrun, hbusy, hdone, herr, holen, hbytes⟩ := dec_of_text (t := encText t len.toNat)
    (len := BitVec.ofNat 16 (encLen len.toNat)) hinv hidle hquiet (by rwa [hnum])
    (by rw [hnum]; exact wellFormedText_congr htext (wellFormedText_encText t _)) (by rw [hnum]; exact decLen_congr htext)
    (by rw [hnum]; exact fun i hi => decByte_congr htext hi)
  rw [hnum, decLen_encText] at holen hbytes
  rw [hnum] at hrun
  exact ⟨t0, u, hissue, hrun, hbusy, hdone, herr, BitVec.eq_of_toNat_eq holen,
    fun i hi => (hbytes i hi).trans (decByte_encText t hi)⟩

/-- Settles O55: the texts and the DEC of IBUF by `unusedBits_ignored`, one group by the octets that its kept bits make. -/
theorem unusedBitsAreIgnored : Obligations.UnusedBitsAreIgnored := by
  refine ⟨fun t u n => unusedBits_ignored, ?machine, ?twoPads, ?onePad⟩
  case machine =>
    intro s t len hinv hidle hquiet hlen hwf hdiff
    obtain ⟨hwf', hlength, hbytes⟩ := unusedBits_ignored hwf hdiff
    exact dec_of_text hinv hidle hquiet hlen hwf' hlength hbytes
  case twoPads =>
    intro t u h0 ht2 ht3 hu2 hu3 hbits
    exact ⟨decLen_of_two_pads (g := 0) ht3 ht2, decLen_of_two_pads (g := 0) hu3 hu2, decByte_first_congr (g := 0) h0 hbits⟩
  case onePad =>
    intro t u h0 h1 ht2 ht3 hu2 hu3 hbits
    have hsecond : textSextet t 1 = textSextet u 1 := by rw [textSextet, textSextet, h1]
    exact ⟨decLen_of_one_pad (g := 0) ht3 ht2, decLen_of_one_pad (g := 0) hu3 hu2,
      decByte_first_congr (g := 0) h0 (congrArg (·.extractLsb' 4 2) hsecond), decByte_second_congr (g := 0) h1 hbits⟩

end Sys2Proof.Machine
end

section
/-! PROOF. Every running command comes to its end (40_host_transactions.md, control flow; 70_reset_and_hazards.md, timing): the groups that are left and
the turns that are left bound the number of steps, under every host that does not reset. -/

namespace Sys2Proof.Machine

/-! ### The number of steps that are left -/

/-- The group steps that a running command still has to take. -/
def Block.groupsLeft (b : Block) : Nat :=
  match b.mode with
  | .enc => (b.len.toNat + 2) / 3 - b.iptr.toNat / 3
  | .dec => b.len.toNat / 4 - b.iptr.toNat / 4

/-- The groups, the finish, and as many steps of a host with lines to carry out as it can have turns. -/
def State.stepsLeft (s : State) : Nat := s.blk.groupsLeft + 1 + if s.pending = [] then 0 else s.turns.length

theorem groupsLeft_enc {b : Block} (h : b.mode = .enc) : b.groupsLeft = (b.len.toNat + 2) / 3 - b.iptr.toNat / 3 := by
  rw [Block.groupsLeft, h]

theorem groupsLeft_dec {b : Block} (h : b.mode = .dec) : b.groupsLeft = b.len.toNat / 4 - b.iptr.toNat / 4 := by
  rw [Block.groupsLeft, h]

/-- The largest configuration has 16383 groups (rules R5, R109). -/
theorem groupsLeft_le {s : State} (hinv : s.Inv) (hrun : s.blk.running) : s.blk.groupsLeft ≤ 16383 := by
  have hsize := decSize_le_of_wf hinv.cfg
  obtain ⟨-, hmax⟩ := hinv.cfg
  cases hmode : s.blk.mode with
  | enc =>
    have hlen := hinv.encLenOk hrun hmode
    rw [groupsLeft_enc hmode]
    omega
  | dec =>
    obtain ⟨hlen, -⟩ := hinv.decLenOk hrun hmode
    rw [groupsLeft_dec hmode]
    omega

/-! ### What a step does to the number -/

theorem spendTurn_turns_length_le (s : State) : (spendTurn s).turns.length ≤ s.turns.length := by
  rw [spendTurn]
  split_ifs
  · exact List.length_tail ▸ Nat.sub_le _ _
  · exact le_rfl

/-- A step of the core uses up no more turns than there are. -/
theorem stepsLeft_core_lt {s : State} {b : Block} (h : b.groupsLeft < s.blk.groupsLeft) :
    ({ spendTurn s with blk := b } : State).stepsLeft < s.stepsLeft := by
  have hturns := spendTurn_turns_length_le s
  simp only [State.stepsLeft, spendTurn_pending]
  split_ifs <;> omega

section Running

variable {s : State} (hinv : s.Inv) (hrun : s.blk.running)
include hinv hrun

theorem groupsLeft_encGrouped (hmode : s.blk.mode = .enc) (hlt : s.blk.iptr.toNat < s.blk.len.toNat) :
    s.encGrouped.groupsLeft < s.blk.groupsLeft := by
  have hiptr : s.encGrouped.iptr.toNat = s.blk.iptr.toNat + 3 := (encGroup_pointers hinv hrun hmode hlt).1
  have hlen : s.encGrouped.len = s.blk.len := rfl
  obtain ⟨hmod, -⟩ := hinv.encPtrs hrun hmode
  rw [groupsLeft_enc hmode, groupsLeft_enc (b := s.encGrouped) hmode, hiptr, hlen]
  omega

theorem groupsLeft_decEmitted (hmode : s.blk.mode = .dec) (hlt : s.blk.iptr.toNat < s.blk.len.toNat) (w : Group) :
    (s.decEmitted w).groupsLeft < s.blk.groupsLeft := by
  have hiptr : (s.decEmitted w).iptr.toNat = s.blk.iptr.toNat + 4 := decGroup_iptr_toNat hinv hrun hmode hlt
  have hlen : (s.decEmitted w).len = s.blk.len := rfl
  obtain ⟨hlast, -⟩ := decGroup_inRange hinv hrun hmode hlt
  obtain ⟨hmod, -⟩ := hinv.decPtrs hrun hmode
  rw [groupsLeft_dec hmode, groupsLeft_dec (b := s.decEmitted w) hmode, hiptr, hlen]
  omega

/-- A step of the core takes one of the groups that are left, or ends the command. -/
theorem running_core_step {t : State} (hcore : nextAgent s = some .core) (hstep : step s = .next t) :
    t.pending = s.pending ∧ ((t.blk.running ∧ t.stepsLeft < s.stepsLeft) ∨ (t.blk.busy = false ∧ t.blk.done = true)) := by
  obtain ⟨b, hb, hcases⟩ := hinv.step_core hcore
  obtain rfl := next_eq (hb.symm.trans hstep)
  refine ⟨spendTurn_pending s, ?_⟩
  obtain ⟨hunbuilt, -⟩ | ⟨-, hmode, hlt, rfl⟩ | ⟨-, -, -, rfl⟩ | ⟨-, hmode, hlt, rfl⟩ | ⟨-, -, -, rfl⟩ := hcases
  · exact absurd (hrun.1.symm.trans hunbuilt) nofun
  · exact .inl ⟨hrun, stepsLeft_core_lt (groupsLeft_encGrouped hinv hrun hmode hlt)⟩
  · exact .inr ⟨rfl, rfl⟩
  · obtain ⟨-, hb⟩ | ⟨k, -, -, -, hb⟩ := hinv.decGrouped_cases hrun hmode
    · rw [hb]
      exact .inl ⟨hrun, stepsLeft_core_lt (groupsLeft_decEmitted hinv hrun hmode hlt _)⟩
    · rw [hb]
      exact .inr ⟨rfl, rfl⟩
  · exact .inr ⟨rfl, rfl⟩

end Running

/-- A running command has an enabled step (rule R176). -/
theorem coreReady_of_running {s : State} (hrun : s.blk.running) : coreReady s = true := by
  obtain ⟨-, -, -, -, -, hnone⟩ := enabledCoreStep s.blk
  rw [coreReady_eq, Option.isSome_iff_ne_none, ne_eq, hnone]
  exact fun ⟨_, hidle⟩ => nomatch hrun.2.symm.trans hidle

theorem nextAgent_ne_none {s : State} (hcore : coreReady s = true) : nextAgent s ≠ none := by
  rw [nextAgent, hcore]
  cases hostReady s <;> exact nofun

/-- While a command runs the host acts only on a turn of its own, which is then used up (rule R201). -/
theorem popped_turns_length_lt {s : State} {l : HostLine} {rest : List HostLine} (hrun : s.blk.running) (hacts : s.hostActs l rest) :
    (s.popped rest).turns.length < s.turns.length := by
  have hcore := coreReady_of_running hrun
  have hhost := hostReady_of_pending hacts.2
  have hhead := (nextAgent_of_both hcore hhost).symm.trans hacts.1
  have hturns : (s.popped rest).turns = s.turns.tail := by
    rw [State.popped, spendTurn, hcore, hhost]
    rfl
  rw [hturns]
  cases h : s.turns with
  | nil => rw [h] at hhead; cases hhead
  | cons a as => exact Nat.lt_succ_self _

/-- A line of the host other than RST uses up a turn of a running command and nothing of its groups. -/
theorem running_host_step {s t : State} {l : HostLine} {rest : List HostLine} (hrun : s.blk.running) (hacts : s.hostActs l rest)
    (hl : l ≠ .rst) (hline : runLine l (s.popped rest) = .next t) :
    (∀ x ∈ t.pending, x = .wait ∨ x ∈ s.pending) ∧ t.blk.running ∧ t.stepsLeft < s.stepsLeft := by
  obtain ⟨hturns, hpending⟩ := runLine_queues hline
  obtain ⟨-, -, hblk, -⟩ := runLine_busy hline (by rw [State.popped_blk]; exact hrun.2) hl
  have hlt := popped_turns_length_lt hrun hacts
  rw [State.popped_blk] at hblk
  refine ⟨?pending, ?running, ?left⟩
  case pending =>
    intro x hx
    rw [hacts.2]
    rcases hpending with h | h <;> rw [h] at hx
    · exact .inr (List.mem_cons_of_mem _ hx)
    · exact (List.mem_cons.mp hx).imp id (List.mem_cons_of_mem _)
  case running => rw [hblk]; exact hrun
  case left =>
    have hgroups : t.blk.groupsLeft = s.blk.groupsLeft := by rw [hblk]; rfl
    have hsome : s.pending ≠ [] := by rw [hacts.2]; exact List.cons_ne_nil _ _
    rw [State.stepsLeft, State.stepsLeft, hgroups, hturns, if_neg hsome]
    split_ifs <;> omega

/-- A state of the invariant in which a command runs and no line of the host resets. -/
structure State.RunsUndisturbed (s : State) : Prop where
  inv : s.Inv
  running : s.blk.running
  noReset : .rst ∉ s.pending

theorem State.RunsUndisturbed.not_hostActs_rst {s : State} (h : s.RunsUndisturbed) (rest : List HostLine) : ¬ s.hostActs .rst rest :=
  fun hacts => h.noReset (by rw [hacts.2]; exact List.mem_cons_self)

/-- Every step of a running command under a host that does not reset brings it nearer to its end, or ends it. -/
theorem State.RunsUndisturbed.step {s t : State} (h : s.RunsUndisturbed) (hstep : step s = .next t) :
    (t.RunsUndisturbed ∧ t.stepsLeft < s.stepsLeft) ∨ (t.blk.busy = false ∧ t.blk.done = true) := by
  have hinv := stepKeepsInvariant s t h.inv hstep
  obtain ⟨hnone, -⟩ | ⟨hcore, -⟩ | ⟨l, rest, hacts, hline⟩ := step_cases hstep
  · exact absurd hnone (nextAgent_ne_none (coreReady_of_running h.running))
  · obtain ⟨hpending, ⟨hrun, hless⟩ | hended⟩ := running_core_step h.inv h.running hcore hstep
    · exact .inl ⟨⟨hinv, hrun, hpending ▸ h.noReset⟩, hless⟩
    · exact .inr hended
  · have hne : l ≠ .rst := by
      rintro rfl
      exact h.not_hostActs_rst rest hacts
    obtain ⟨hpending, hrun, hless⟩ := running_host_step h.running hacts hne hline
    exact .inl ⟨⟨hinv, hrun, fun hmem => (hpending _ hmem).elim nofun h.noReset⟩, hless⟩

/-! ### Runs to the end -/

/-- A phase `R` of a running command, which every step keeps or ends with `Q`, reaches `Q` in no more steps than are left. -/
theorem run_reaches {R Q : State → Prop} (hrunning : ∀ s, R s → s.blk.running)
    (hkeep : ∀ s u, s.RunsUndisturbed → R s → step s = .next u → R u ∨ Q u) {s : State} (h : s.RunsUndisturbed) (hR : R s) :
    ∃ k ≤ s.stepsLeft, ∃ u, run k s = .next u ∧ Q u := by
  induction hm : s.stepsLeft using Nat.strong_induction_on generalizing s with
  | _ m ih =>
    obtain ⟨u, hstep⟩ := noStepFaults s h.inv
    obtain hRu | hQ := hkeep s u h hR hstep
    · obtain ⟨hu, hless⟩ | ⟨hidle, -⟩ := h.step hstep
      · obtain ⟨k, hk, v, hrun, hQ⟩ := ih _ (hm ▸ hless) hu hRu rfl
        exact ⟨k + 1, by omega, v, (run_step k hstep).trans hrun, hQ⟩
      · exact absurd ((hrunning u hRu).2.symm.trans hidle) nofun
    · exact ⟨1, by rw [← hm, State.stepsLeft]; omega, u, run_one hstep, hQ⟩

theorem stepsLeft_le {s : State} (hinv : s.Inv) (hrun : s.blk.running) : s.stepsLeft ≤ 16384 + s.turns.length := by
  have hgroups := groupsLeft_le hinv hrun
  rw [State.stepsLeft]
  split_ifs <;> omega

theorem stepsLeft_le_of_quiet {s : State} (hinv : s.Inv) (hrun : s.blk.running) (hquiet : s.pending = []) : s.stepsLeft ≤ 16384 := by
  have hgroups := groupsLeft_le hinv hrun
  rw [State.stepsLeft, if_pos hquiet]
  omega

/-- A running command comes to `BUSY = 0` and `DONE = 1`. -/
theorem run_completes {s : State} (h : s.RunsUndisturbed) :
    ∃ k ≤ s.stepsLeft, ∃ t, run k s = .next t ∧ t.blk.busy = false ∧ t.blk.done = true :=
  run_reaches (fun _ hrun => hrun) (fun _ _ hs _ hstep => (hs.step hstep).imp_left fun hu => hu.1.running) h h.running

/-- Settles O59: each step takes a group or a turn, and there are at most 16383 groups and one finish. -/
theorem everyRunningCommandCompletes : Obligations.EveryRunningCommandCompletes := by
  refine ⟨fun s hinv hrun hquiet => ?quiet, fun s hinv hrun hrst => ?host⟩
  case quiet =>
    obtain ⟨k, hk, hend⟩ := run_completes ⟨hinv, hrun, by rw [hquiet]; exact List.not_mem_nil⟩
    exact ⟨k, hk.trans (stepsLeft_le_of_quiet hinv hrun hquiet), hend⟩
  case host =>
    obtain ⟨k, hk, hend⟩ := run_completes ⟨hinv, hrun, hrst⟩
    exact ⟨k, hk.trans (stepsLeft_le hinv hrun), hend⟩

/-- Settles O60: every step keeps the progress or ends it with the result, and the steps that are left run out. -/
theorem runningCommandReachesItsResult : Obligations.RunningCommandReachesItsResult := by
  intro s t n hinv hrst
  refine ⟨fun hp => ?enc, fun hp => ?dec⟩
  case enc =>
    obtain ⟨k, hk, hend⟩ := run_reaches (R := (·.EncProgress t n)) (fun _ hs => hs.running)
      (fun s u hs hR => encStepKeepsProgressOrCompletes s u t n hs.inv hR hs.not_hostActs_rst) ⟨hinv, hp.running, hrst⟩ hp
    exact ⟨k, hk.trans (stepsLeft_le hinv hp.running), hend⟩
  case dec =>
    obtain ⟨k, hk, hend⟩ := run_reaches (R := (·.DecProgress t n)) (fun _ hs => hs.running)
      (fun s u hs hR => decStepKeepsProgressOrEnds s u t n hs.inv hR hs.not_hostActs_rst) ⟨hinv, hp.running, hrst⟩ hp
    exact ⟨k, hk.trans (stepsLeft_le hinv hp.running), hend⟩

end Sys2Proof.Machine
end
